-- ==== Sys2Proof/Word.lean ====
section
/-! DEFINITION. The data model's words: a byte, a bit of the wire, a Color (spec R13, R31, R51). -/

namespace Sys2Proof

/-- An unsigned 8-bit value (R13); `v.getLsbD j` is `v[j]`, the bit of weight `2^j`. -/
abbrev Byte := BitVec 8

/-- A bit, and a level of the pin: `true` is 1 and "high", `false` is 0 and "low" (R13). -/
abbrev Bit := Bool

/-- A trace: one level a tick, oldest first (R14). -/
abbrev Trace := List Bit

/-- "an ordered triplet of three 8-bit intensity channels (red, green, blue)" (glossary, R51). -/
structure Color where
  red : Byte
  green : Byte
  blue : Byte
  deriving DecidableEq, Repr

end Sys2Proof
end

