-- ==== Sys2Proof/Config.lean ====
section
/-! DEFINITION. The constants the source fixes (R6), the configuration an implementation fixes (R7), the two reference
instantiations (R9), and the values that stay free after a reset during a run (R181). -/

namespace Sys2Proof

/-- Nominal bit period T, in ns (R6). -/
def T_NS : Nat := 1250
/-- Nominal high time of a 1, in ns (R6). -/
def HI1_NS : Nat := 750
/-- Nominal low time of a 1, in ns (R6). -/
def LO1_NS : Nat := 500
/-- Nominal high time of a 0, in ns (R6). -/
def HI0_NS : Nat := 375
/-- Nominal low time of a 0, in ns (R6). -/
def LO0_NS : Nat := 875
/-- Tolerance on each of the five durations above, in ns (R6, R194, C3). -/
def TOL_NS : Nat := 150
/-- Least line-low time between frames, in ns (R6). -/
def RESET_NS : Nat := 80000

/-- The configuration `Cfg` (R7): plain data, held in State, which no step changes (log 1). -/
structure Cfg where
  /-- `TICK_NS = tickNum / tickDen`, a positive rational (R7, log 21). -/
  tickNum : Nat
  tickDen : Nat
  /-- `N_T`: ticks in one bit slot. -/
  nT : Nat
  /-- `N_1H`: high ticks of a 1. -/
  n1H : Nat
  /-- `N_0H`: high ticks of a 0. -/
  n0H : Nat
  /-- `N_RESET`: least number of consecutive low ticks that separates two frames. -/
  nReset : Nat
  /-- `W_COUNT`: width in bits of `count` and `len`. -/
  wCount : Nat
  /-- `W_ADDR`: width in bits of a byte address. -/
  wAddr : Nat
  /-- `PIN_ID`: which physical line is the output pin; opaque, never read by any rule. -/
  pinId : Nat
  /-- DESIGN CHOICE (log 4): ranges (first address, length) that no readable memory backs (R58, R92 (3)). -/
  unbacked : List (Nat × Nat)
  deriving DecidableEq, Repr

/-- A configuration of the given tick and tick counts, with the reference widths of R7. -/
def Cfg.ofCounts (tickNum tickDen nT n1H n0H nReset : Nat) : Cfg :=
  { tickNum := tickNum, tickDen := tickDen, nT := nT, n1H := n1H, n0H := n0H, nReset := nReset,
    wCount := 16, wAddr := 16, pinId := 0, unbacked := [] }

/-- Reference instantiation A: 8 MHz (R9). -/
def Cfg.refA : Cfg := Cfg.ofCounts 125 1 10 6 3 640

/-- Reference instantiation B: 16 MHz (R9); a tick of 62.5 ns. -/
def Cfg.refB : Cfg := Cfg.ofCounts 125 2 20 12 6 1280

/-- FREE VALUE (log 9): `IE` after the n-th reset during a run: "unspecified: any value" (R38, R181). -/
opaque Config.ieAtReset : Nat → Bool

/-- FREE VALUE (log 9): what the data memory holds after the n-th reset during a run: "unspecified: any value" (R38, R181). -/
opaque Config.memAtReset : Nat → List (Nat × Byte)

end Sys2Proof
end

