-- ==== Sys2Proof/Syntax.lean ====
section
/-! DEFINITION. The operations of the opcode table (R79), the words they are read from (R70 to R78), and the lines of a host
script (R83). -/

namespace Sys2Proof

/-- One constructor per row of the opcode table (R79). -/
inductive Instr where
  /-- `TRANSMIT base, len, count` (R90). -/
  | transmit (base len count : Nat)
  /-- `EMIT_COLOR c` (R114). -/
  | emitColor (c : Color)
  /-- `EMIT_BYTE v` (R113). -/
  | emitByte (v : Byte)
  /-- `BIT1` (R111). -/
  | bit1
  /-- `BIT0` (R112). -/
  | bit0
  /-- `LATCH`, a run of `m` low ticks (R118). -/
  | latch (m : Nat)
  deriving DecidableEq, Repr

/-- The five formats (R70, R72, R73, R75, R78). -/
inductive Format where
  | cmd
  | color24
  | channel8
  | sym
  | idle
  deriving DecidableEq, Repr

/-- An operation's word: its format, how many bits it has, and its bits as one number. For the wire formats the bit (or
tick) sent first is the most significant (R72, R73, R75; P1 of `95_test_vectors.md`). -/
structure OpWord where
  format : Format
  width : Nat
  bits : Nat
  deriving DecidableEq, Repr

/-- One line of a host script, a host move (R83). -/
inductive HostMove where
  /-- `POKE addr, v` -/
  | poke (addr : Nat) (v : Byte)
  /-- `OUTPUT`: `PIN_OE <- 1` -/
  | output
  /-- `INPUT`: `PIN_OE <- 0` -/
  | input
  /-- `SEI`: `IE <- 1` -/
  | sei
  /-- `CLI`: `IE <- 0` -/
  | cli
  /-- `TRANSMIT base, len, count` -/
  | transmit (base len count : Nat)
  /-- `WAIT n`: `n` idle ticks -/
  | wait (n : Nat)
  deriving DecidableEq, Repr

end Sys2Proof
end

