-- ==== Sys2Proof/WellFormed.lean ====
section
/-! DEFINITION. When a configuration is well formed (R8) and when an instruction is (R28, R70, R78). -/

namespace Sys2Proof

/-- `| n * TICK_NS - nominal | <= 150`, with both sides multiplied by the tick's denominator (R8). -/
abbrev Cfg.Near (c : Cfg) (n nominal : Nat) : Prop :=
  n * c.tickNum ≤ (nominal + TOL_NS) * c.tickDen ∧ nominal * c.tickDen ≤ n * c.tickNum + TOL_NS * c.tickDen

/-- R8, line by line; the first line is R7's "positive rational". -/
abbrev Cfg.WF (c : Cfg) : Prop :=
  (0 < c.tickNum ∧ 0 < c.tickDen) ∧
  (0 < c.n0H ∧ c.n0H < c.n1H ∧ c.n1H < c.nT) ∧
  c.Near c.nT T_NS ∧
  c.Near c.n1H HI1_NS ∧
  c.Near (c.nT - c.n1H) LO1_NS ∧
  c.Near c.n0H HI0_NS ∧
  c.Near (c.nT - c.n0H) LO0_NS ∧
  RESET_NS * c.tickDen ≤ c.nReset * c.tickNum ∧
  (1 ≤ c.wCount ∧ 1 ≤ c.wAddr)

/-- The operands fit the fields of the command port (R28, R70). -/
abbrev Cfg.OperandsFit (c : Cfg) (base len count : Nat) : Prop :=
  base < 2 ^ c.wAddr ∧ len < 2 ^ c.wCount ∧ count < 2 ^ c.wCount

/-- A well-formed instruction: operands of a command fit its port (R28); a latch has at least `N_RESET` ticks (R78). -/
def Instr.wf (c : Cfg) : Instr → Bool
  | .transmit base len count => decide (c.OperandsFit base len count)
  | .emitColor _ => true
  | .emitByte _ => true
  | .bit1 => true
  | .bit0 => true
  | .latch m => decide (c.nReset ≤ m)

end Sys2Proof
end

