-- ==== Sys2Proof/Decode.lean ====
section
/-! DEFINITION. The encodings of `30_encoding.md`: the symbols, the decoder (total, rejecting by name), the encoder, the
numbering of the opcode table, and the nominal decoder of a trace (R119). -/

namespace Sys2Proof

/-- `N_H(b)` (R15). -/
def highTicks (c : Cfg) (b : Bit) : Nat := if b then c.n1H else c.n0H

/-- The trace of one bit slot: `1^N_H(b) ++ 0^(N_T - N_H(b))` (R75 to R77, R110). -/
def sym (c : Cfg) (b : Bit) : Trace :=
  List.replicate (highTicks c b) true ++ List.replicate (c.nT - highTicks c b) false

/-- A list of bits read as a number, the first the most significant. -/
def listValue (w : List Bit) : Nat := w.foldl (fun n b => 2 * n + b.toNat) 0

/-- The symbol of `b` as a number of `N_T` bits, the first tick the most significant (R76, R77). -/
def symValue (c : Cfg) (b : Bit) : Nat := listValue (sym c b)

/-- Width of the command word `cmd_count ++ cmd_len ++ cmd_base` (R70). -/
def cmdWidth (c : Cfg) : Nat := c.wAddr + 2 * c.wCount

/-- Why a word has no decoding. -/
inductive DecodeError where
  /-- The number does not fit the width the word claims. -/
  | bitsBeyondWidth
  /-- The width is not the format's (R70, R72, R73, R75). -/
  | wrongWidth
  /-- A slot that is neither `BIT1` nor `BIT0` (R81, R119). -/
  | notASymbol
  /-- An idle word with a high tick (R78). -/
  | notAllLow
  /-- A low run shorter than `N_RESET` is no `LATCH` (R78). -/
  | tooShortForLatch
  deriving DecidableEq, Repr

/-- Format `CMD` (R70): every word of the right width decodes (R80). -/
def decodeCmd (c : Cfg) (bits : Nat) : Instr :=
  .transmit (bits % 2 ^ c.wAddr) (bits / 2 ^ c.wAddr % 2 ^ c.wCount) (bits / 2 ^ (c.wAddr + c.wCount) % 2 ^ c.wCount)

/-- Format `COLOR24`: red bits 23:16, green bits 15:8, blue bits 7:0 (R72). -/
def decodeColor (bits : Nat) : Instr :=
  .emitColor ⟨BitVec.ofNat 8 (bits / 65536), BitVec.ofNat 8 (bits / 256), BitVec.ofNat 8 bits⟩

/-- Format `SYM`: the two slots of R76 and R77, no other (R81). -/
def decodeSym (c : Cfg) (bits : Nat) : Except DecodeError Instr :=
  if bits = symValue c true then .ok .bit1
  else if bits = symValue c false then .ok .bit0
  else .error .notASymbol

/-- The decoder (R70 to R82). -/
def decode (c : Cfg) (w : OpWord) : Except DecodeError Instr :=
  if 2 ^ w.width ≤ w.bits then .error .bitsBeyondWidth
  else match w.format with
    | .cmd => if w.width = cmdWidth c then .ok (decodeCmd c w.bits) else .error .wrongWidth
    | .color24 => if w.width = 24 then .ok (decodeColor w.bits) else .error .wrongWidth
    | .channel8 => if w.width = 8 then .ok (.emitByte (BitVec.ofNat 8 w.bits)) else .error .wrongWidth
    | .sym => if w.width = c.nT then decodeSym c w.bits else .error .wrongWidth
    | .idle =>
      if w.bits ≠ 0 then .error .notAllLow
      else if w.width < c.nReset then .error .tooShortForLatch
      else .ok (.latch w.width)

/-- The word of an instruction, from the same tables (R70, R72, R73, R76 to R78). -/
def encode (c : Cfg) : Instr → OpWord
  | .transmit base len count =>
    ⟨.cmd, cmdWidth c, count * 2 ^ (c.wAddr + c.wCount) + len * 2 ^ c.wAddr + base⟩
  | .emitColor k => ⟨.color24, 24, k.red.toNat * 65536 + k.green.toNat * 256 + k.blue.toNat⟩
  | .emitByte v => ⟨.channel8, 8, v.toNat⟩
  | .bit1 => ⟨.sym, c.nT, symValue c true⟩
  | .bit0 => ⟨.sym, c.nT, symValue c false⟩
  | .latch m => ⟨.idle, m, 0⟩

/-- `n` bits in whole bytes. -/
def wholeBytes (n : Nat) : Nat := (n + 7) / 8 * 8

/-- Which word the opcode table's row of `nbits` bits and value `w` is (log 13): the formats have different widths, so the
width says the format; a row with fewer bits than a command, and no format of its own, is a command with zero operands. -/
def tableWord (c : Cfg) (nbits w : Nat) : OpWord :=
  if nbits = 8 then ⟨.channel8, 8, w⟩
  else if nbits = 24 then ⟨.color24, 24, w⟩
  else if nbits = c.nT ∨ nbits = wholeBytes c.nT then ⟨.sym, c.nT, w⟩
  else if nbits ≤ wholeBytes (cmdWidth c) then ⟨.cmd, cmdWidth c, w⟩
  else ⟨.idle, nbits, w⟩

/-- The instruction the decoder reads from a row of the opcode table, at the reference instantiation A. -/
def decodeTableWord (nbits w : Nat) : Option Instr :=
  match decode Cfg.refA (tableWord Cfg.refA nbits w) with
  | .ok i => some i
  | .error _ => none

/-- One slot of the nominal decoder (R119). -/
def decodeSlot (c : Cfg) (slot : Trace) : Option Bit :=
  if slot = sym c true then some true
  else if slot = sym c false then some false
  else none

/-- `decode(w)` of R119: cut into slots of `N_T` ticks; a trace that is no whole number of slots has no decoding. -/
def nominalDecode (c : Cfg) (w : Trace) : Option (List Bit) :=
  if w.length % c.nT = 0 then
    (List.range (w.length / c.nT)).mapM (fun i => decodeSlot c ((w.drop (i * c.nT)).take c.nT))
  else none

end Sys2Proof
end

