-- ==== Sys2Proof/Machine/State.lean ====
section
/-! DEFINITION. The state the spec gives the machine (`10_state.md`), the model's own scheduling data, why a step can stop,
and the state after reset (R38). -/

namespace Sys2Proof.Machine

/-- The data memory (R50): (address, byte) pairs, addresses strictly rising, no entry equal to what an unlisted address
reads as (Machine/Ops.lean). -/
abbrev Memory := List Host.Cell

/-- The eight working registers (R21). `bas`, `cnt`, `led` and `ph` have widths that the configuration gives; they are
naturals here and `Inv` (Safety.lean) says that they fit (log 22). -/
structure Regs where
  /-- 1 from the acceptance of a command until its completion (R24). -/
  busy : Bool
  /-- The `base` operand of the command in progress. -/
  bas : Nat
  /-- The `count` operand of the command in progress. -/
  cnt : Nat
  /-- Index of the Color being sent. -/
  led : Nat
  /-- Channel being sent: 0 red, 1 green, 2 blue. -/
  ch : Fin 3
  /-- Number of bits of the current byte already sent. -/
  k : Fin 8
  /-- Number of ticks of the current bit slot already elapsed. -/
  ph : Nat
  /-- The byte being sent. -/
  sh : Byte
  deriving DecidableEq, Repr

/-- The idle block "is one single state" (R33). -/
def Regs.zero : Regs :=
  { busy := false, bas := 0, cnt := 0, led := 0, ch := 0, k := 0, ph := 0, sh := 0 }

/-- The result codes (R150): `RESULT` 0 and 1. -/
inductive ResultCode where
  | ok
  | invalidArgument
  deriving DecidableEq, Repr

/-- A handler the interrupt environment enters (R156): at the first boundary where it may, once `delay` such boundaries
have been let pass; `body` is what it does (log 8). -/
structure Handler where
  delay : Nat
  body : List HostMove
  deriving DecidableEq, Repr

/-- An assertion and release of `rst` (R180) after `delay` further steps; `script` is what the host does from then on
(R184, log 9). -/
structure ResetEvent where
  delay : Nat
  script : List HostMove
  deriving DecidableEq, Repr

/-- Every piece of state the spec gives the machine, and the data that says what moves next. -/
structure State where
  /-- The configuration (R7); no step changes it. -/
  cfg : Cfg
  /-- The working registers (R21). -/
  regs : Regs
  /-- `IE` (R26). -/
  ie : Bool
  /-- `PIN_OE` (R27). -/
  pinOe : Bool
  /-- The data memory (R50). -/
  mem : Memory
  /-- An operation word presented at this boundary, to be run as a whole; a `CMD` word is the command port's (R28, R70, log 5). -/
  port : Option OpWord
  /-- The result port: `ret` with its `RESULT`, at the boundary where it is delivered only (R29, log 10). -/
  ret : Option ResultCode
  /-- Host moves not yet made, oldest first (R83, R184). -/
  script : List HostMove
  /-- Handlers the interrupt environment will enter, in order (R156). -/
  handlers : List Handler
  /-- Coming assertions of `rst`, in order (R180). -/
  resets : List ResetEvent
  /-- How many free values have been used; the model's own (log 9). -/
  fresh : Nat
  /-- Ghost: `PIN(t)` for every tick since reset, oldest first (R35). -/
  trace : Trace
  /-- Ghost: the number of consecutive 0 at the end of `trace` (R35). -/
  lowRun : Nat
  /-- Ghost: the bits whose slots have completed since the last acceptance (R35). -/
  sent : List Bit
  /-- Ghost of the model's own: the addresses the block has read since reset, oldest first (log 11). -/
  reads : List Nat
  deriving DecidableEq, Repr

/-- Why a step faults. All are safe: the model stops where real hardware may go on. -/
inductive Fault where
  /-- A `POKE`, or a byte read of the sequencer in a state no run reaches, at an address outside `0 .. 2^W_ADDR - 1`
  (R50, log 15). Safe. -/
  | noSuchAddress (addr : Nat)
  /-- The same at an address that no readable memory backs (R58, log 15). Safe. -/
  | unbackedAddress (addr : Nat)
  deriving DecidableEq, Repr

/-- Why a step is refused: the spec gives the event no meaning (R12). All are safe. -/
inductive Refusal where
  /-- An arm of exec that has no meaning yet. Safe. -/
  | notModelled (mnemonic : String)
  /-- `TRANSMIT` with `PIN_OE = 0` (R92 (1)). Safe. -/
  | pinNotOutput
  /-- `TRANSMIT` with `base + 3 len > 2^W_ADDR` (R92 (2)). Safe. -/
  | bufferDoesNotFit
  /-- `TRANSMIT` with a byte of the buffer not backed by readable memory (R92 (3)). Safe. -/
  | bufferUnreadable
  /-- `TRANSMIT` while one is in progress: no such event (R91, log 14). Safe. -/
  | commandWhileBusy
  /-- `TRANSMIT` with an operand its port field cannot carry (R28, log 12). Safe. -/
  | operandTooWide
  /-- A step of a frame where the sequencer is not at that step (R79, log 6). Safe. -/
  | stepNotDue
  /-- `LATCH` while the block is busy: the host is stalled and cannot wait (R78, R91, log 19). Safe. -/
  | lineInUse
  /-- A word with no decoding (R78, R81, R119). Safe. -/
  | illegalWord (why : DecodeError)
  /-- The configuration is not well formed: "a model refuses any other" (R8). Safe. -/
  | illFormedConfiguration
  deriving DecidableEq, Repr

/-- The state after reset under a configuration (R38); `ie` and the memory's contents are the model's choice (log 2, 3). -/
def State.resetWith (c : Cfg) : State :=
  { cfg := c, regs := Regs.zero, ie := false, pinOe := false, mem := [], port := none, ret := none,
    script := [], handlers := [], resets := [], fresh := 0, trace := [], lowRun := 0, sent := [], reads := [] }

/-- The state after reset (R38), under the reference instantiation A (log 1). -/
def State.reset : State := State.resetWith Cfg.refA

end Sys2Proof.Machine
end

