-- ==== Sys2Proof/Machine/Flags.lean ====
section
/-! DEFINITION. The pin (R30, R132), the line (R27), the ghost run of low ticks (R35), and every write of `IE` (R95). -/

namespace Sys2Proof.Machine

/-- The bit being sent, `sh[7 - k]` (R21). -/
def Regs.curBit (r : Regs) : Bit := r.sh.getLsbD (7 - r.k.val)

/-- `PIN` (R30): 1 when `busy = 1` and `ph < N_H(sh[7 - k])`. -/
def State.pin (s : State) : Bit := s.regs.busy && decide (s.regs.ph < highTicks s.cfg s.regs.curBit)

/-- What the line carries: `PIN` while `PIN_OE = 1`; nothing is said otherwise (R27, U14). -/
def State.lineLevel (s : State) : Option Bit := if s.pinOe then some s.pin else none

/-- `low_run` after further ticks: a 0 lengthens it, a 1 ends it (R35). -/
def lowRunAfter (n : Nat) (w : Trace) : Nat := w.foldl (fun n b => if b then 0 else n + 1) n

/-- The pin holds the levels of `w`, one a tick: they are appended to `trace` (R131, R135). -/
def State.drive (w : Trace) (s : State) : State :=
  { s with trace := s.trace ++ w, lowRun := lowRunAfter s.lowRun w }

/-- `IE <- 0` (R95). -/
def State.mask (s : State) : State := { s with ie := false }

/-- `IE <- 1` (R95). -/
def State.unmask (s : State) : State := { s with ie := true }

end Sys2Proof.Machine
end

