-- ==== Sys2Proof/Machine/Ops.lean ====
section
/-! DEFINITION. The operations the meanings share: memory (R50), outcomes, a byte read (R53, R61), the delivery of a result
(R150), the report of `InvalidArgument` (R93, R151, R160), completion (R134), and the system's reset (R180 to R182). -/

namespace Sys2Proof.Machine

/-- What a byte that nothing has written reads as. DESIGN CHOICE (log 3): the spec says "unspecified: any value" (R38). -/
def Memory.unwritten : Byte := 0

/-- One byte of memory. -/
def Memory.read : Memory → Nat → Byte
  | [], _ => Memory.unwritten
  | (b, v) :: m, a => if b = a then v else Memory.read m a

/-- Write one byte, keeping the canonical form. -/
def Memory.write : Memory → Nat → Byte → Memory
  | [], a, v => if v = Memory.unwritten then [] else [(a, v)]
  | (b, u) :: m, a, v =>
    if b < a then (b, u) :: Memory.write m a v
    else if b = a then (if v = Memory.unwritten then m else (a, v) :: m)
    else if v = Memory.unwritten then (b, u) :: m
    else (a, v) :: (b, u) :: m

/-- The canonical form: addresses strictly rising, no entry equal to an unwritten byte. -/
def Memory.wf : Memory → Bool
  | [] => true
  | [(_, v)] => decide (v ≠ Memory.unwritten)
  | (a, v) :: (b, u) :: m => decide (v ≠ Memory.unwritten) && decide (a < b) && Memory.wf ((b, u) :: m)

/-- `a` lies in the range (first address, length). -/
def inRange (h : Nat × Nat) (a : Nat) : Bool := decide (h.1 ≤ a ∧ a < h.1 + h.2)

/-- Readable memory backs `a`: it is an address of the space (R50) and in no unbacked range (R58). -/
def backed (c : Cfg) (a : Nat) : Bool := decide (a < 2 ^ c.wAddr) && !(c.unbacked.any (fun h => inRange h a))

/-- The contents a list of cells gives the memory, within what is backed. -/
def Memory.ofCells (c : Cfg) (cells : List Host.Cell) : Memory :=
  cells.foldl (fun m x => if backed c x.1 then Memory.write m x.1 x.2 else m) []

/-- What a step answers. -/
abbrev Out := Host.Outcome State Fault Refusal

/-- Go on from a next state; a fault or a refusal stays. -/
def andThen (o : Out) (f : State → Out) : Out :=
  match o with
  | .next s => f s
  | .fault r => .fault r
  | .refused r => .refused r

/-- The next state, if there is one. -/
def nextState (o : Out) : Option State :=
  match o with
  | .next s => some s
  | .fault _ => none
  | .refused _ => none

/-- Go on with `s` if memory backs `a`; an address that does not exist faults (log 15). -/
def ifBacked (a : Nat) (s : State) (o : Out) : Out :=
  if 2 ^ s.cfg.wAddr ≤ a then .fault (.noSuchAddress a)
  else if backed s.cfg a then o
  else .fault (.unbackedAddress a)

/-- `MemRead(a, 1)` (R15, R53): the byte, with the access noted in the ghost `reads`. -/
def loadByte (a : Nat) (s : State) (f : Byte → State → Out) : Out :=
  ifBacked a s (f (s.mem.read a) { s with reads := s.reads ++ [a] })

/-- A host's write of one byte (`POKE`, R83). -/
def storeByte (a : Nat) (v : Byte) (s : State) : Out :=
  ifBacked a s (.next { s with mem := s.mem.write a v })

/-- `ret(r)`: the result is delivered once, at this boundary (R29). -/
def State.deliver (r : ResultCode) (s : State) : State := { s with ret := some r }

/-- Reporting the block's one error (R93, R151, R160): `IE <- 1`, `ret(InvalidArgument)`, and nothing else. No state is
saved, no mode changes, control goes back to the caller at the same boundary; there is no return operation (R161). -/
def State.raiseInvalidArgument (s : State) : State := s.unmask.deliver .invalidArgument

/-- A command with `count = 0` (R96): the net effect `IE <- 1`, `ret(OK)`. -/
def State.completeAtOnce (s : State) : State := s.unmask.deliver .ok

/-- Completion (R134): the working registers cleared, `IE <- 1`, `ret(OK)`. -/
def State.complete (s : State) : State := { s with regs := Regs.zero }.unmask.deliver .ok

/-- The system's reset (R180 to R182): the block idle, `PIN_OE = 0`, no result; `IE` and memory belong to the host and take
free values (log 9); the ghosts start again at the release (R14, R38); the host goes on with `e.script`. -/
def State.systemReset (e : ResetEvent) (s : State) : State :=
  { s with
    regs := Regs.zero, ie := Config.ieAtReset s.fresh, pinOe := false,
    mem := Memory.ofCells s.cfg (Config.memAtReset s.fresh), port := none, ret := none,
    script := e.script, fresh := s.fresh + 1, trace := [], lowRun := 0, sent := [], reads := [] }

end Sys2Proof.Machine
end

