-- ==== Sys2Proof/Machine/Operands.lean ====
section
/-! DEFINITION. Operand assembly (R71) and the tests of a command (R92, R159): channels and bits of a Color, the buffer's
addresses (R51), whether it fits and can be read. -/

namespace Sys2Proof.Machine

/-- `c.chan(i)`: red for 0, green for 1, blue for 2 (R15). -/
def chan (c : Color) (i : Nat) : Byte :=
  match i with
  | 0 => c.red
  | 1 => c.green
  | _ => c.blue

/-- The bits of a byte in the order they are sent, most significant first (R73). -/
def byteBits (v : Byte) : List Bit := (List.range 8).map (fun j => v.getLsbD (7 - j))

/-- `base + 3 i + c` (R51, R71). -/
def chanAddr (base i c : Nat) : Nat := base + 3 * i + c

/-- `strip[i]` of the buffer at `base` (R51). -/
def stripColor (m : Memory) (base i : Nat) : Color :=
  ⟨m.read (chanAddr base i 0), m.read (chanAddr base i 1), m.read (chanAddr base i 2)⟩

/-- The first `count` Colors of the buffer at `base`. -/
def stripColors (m : Memory) (base count : Nat) : List Color := (List.range count).map (stripColor m base)

/-- `[base, base + 3 len)` lies in the address space (R52, R92 (2)). -/
def bufferFits (c : Cfg) (base len : Nat) : Bool := decide (base + 3 * len ≤ 2 ^ c.wAddr)

/-- The range `h` and `[base, base + n)` have an address in common. -/
def rangesMeet (h : Nat × Nat) (base n : Nat) : Bool := decide (0 < h.2 ∧ 0 < n ∧ h.1 < base + n ∧ base < h.1 + h.2)

/-- Readable memory backs every byte of `[base, base + 3 len)` (R58, R92 (3)), for a buffer that fits. -/
def bufferReadable (c : Cfg) (base len : Nat) : Bool := !(c.unbacked.any (fun h => rangesMeet h base (3 * len)))

/-- The tests on a command, in their order (R159): what is no event at all, the three refusals of R92, `count > len`
(R93), `count = 0` (R96), and the ordinary path, which is `accepted`. -/
def command (base len count : Nat) (accepted : State → Out) (s : State) : Out :=
  if s.regs.busy then .refused .commandWhileBusy
  else if ¬ s.cfg.OperandsFit base len count then .refused .operandTooWide
  else if ¬ s.pinOe then .refused .pinNotOutput
  else if ¬ bufferFits s.cfg base len then .refused .bufferDoesNotFit
  else if ¬ bufferReadable s.cfg base len then .refused .bufferUnreadable
  else if len < count then .next s.raiseInvalidArgument
  else if count = 0 then .next s.completeAtOnce
  else accepted s

end Sys2Proof.Machine
end

