-- ==== Sys2Proof/Machine/Sequencer.lean ====
section
/-! DEFINITION. The sequencer, tick by tick (`42_sequencer.md`): acceptance, the end of a slot, the advance, the busy tick,
the idle tick; and the position's flat index and tick offset (R23). -/

namespace Sys2Proof.Machine

/-- Acceptance (R130): the first byte is read, `IE <- 0`, the position is zero. `len` is not kept. -/
def accept (base count : Nat) (s : State) : Out :=
  loadByte base s fun v t =>
    .next { t.mask with
      regs := { busy := true, bas := base, cnt := count, led := 0, ch := 0, k := 0, ph := 0, sh := v }
      sent := [] }

/-- The slot of bit `b` ends (R133, the outer else): next bit, next channel, next Color, or completion (R134). -/
def slotEnd (b : Bit) (s : State) : Out :=
  let r := { s.regs with ph := 0 }
  let s := { s with sent := s.sent ++ [b] }
  if r.k.val < 7 then .next { s with regs := { r with k := r.k + 1 } }
  else if r.ch.val < 2 then
    loadByte (chanAddr r.bas r.led (r.ch.val + 1)) s fun v t =>
      .next { t with regs := { r with k := 0, ch := r.ch + 1, sh := v } }
  else if r.led + 1 < r.cnt then
    loadByte (chanAddr r.bas (r.led + 1) 0) s fun v t =>
      .next { t with regs := { r with k := 0, ch := 0, led := r.led + 1, sh := v } }
  else .next s.complete

/-- Advance, at the boundary that ends a busy tick (R133). -/
def advance (s : State) : Out :=
  if s.regs.ph + 1 < s.cfg.nT then .next { s with regs := { s.regs with ph := s.regs.ph + 1 } }
  else slotEnd s.regs.curBit s

/-- A busy tick (R131): the pin holds its level for the tick, then the position advances. -/
def busyTick (s : State) : Out := advance (s.drive [s.pin])

/-- An idle tick (R135): `trace` gains a 0. -/
def idleTick (s : State) : Out := .next (s.drive [false])

/-- The flat bit index `24 led + 8 ch + k` (R23). -/
def Regs.bitIndex (r : Regs) : Nat := 24 * r.led + 8 * r.ch.val + r.k.val

/-- The tick offset within the transmission (R23). -/
def State.tickOffset (s : State) : Nat := s.regs.bitIndex * s.cfg.nT + s.regs.ph

end Sys2Proof.Machine
end

