-- ==== Sys2Proof/Machine/Wire.lean ====
section
/-! DEFINITION. The wire symbols and the steps of a frame as whole operations (`41_wire_symbols.md`): `BIT1`, `BIT0`,
`EMIT_BYTE`, `EMIT_COLOR`, `LATCH`; the frame's bits (R74) and its wave (R94). -/

namespace Sys2Proof.Machine

/-- `EmitBit(b)` (R110): one slot on the pin, then the end of that slot (R133). -/
def emitBit (b : Bit) (s : State) : Out := slotEnd b (s.drive (sym s.cfg b))

/-- Bit slots, one after the other. -/
def emitBits : List Bit → State → Out
  | [], s => .next s
  | b :: bs, s => andThen (emitBit b s) (emitBits bs)

/-- `EmitByte(v)` (R113): the eight bits of `v`, most significant first. -/
def emitByte (v : Byte) (s : State) : Out := emitBits (byteBits v) s

/-- `EmitColor(c)` (R114): red, then green, then blue. -/
def emitColor (c : Color) (s : State) : Out :=
  andThen (emitByte c.red s) fun t => andThen (emitByte c.green t) (emitByte c.blue)

/-- The loop of R90: the Colors in buffer order. -/
def emitColors : List Color → State → Out
  | [], s => .next s
  | c :: cs, s => andThen (emitColor c s) (emitColors cs)

/-- The sequencer is at the first tick of a slot that carries `b`. -/
def bitDue (b : Bit) (s : State) : Bool := s.regs.busy && decide (s.regs.ph = 0) && decide (s.regs.curBit = b)

/-- The sequencer is at the first tick of a byte, and the byte is `v`. -/
def byteDue (v : Byte) (s : State) : Bool :=
  s.regs.busy && decide (s.regs.ph = 0) && decide (s.regs.k = 0) && decide (s.regs.sh = v)

/-- The sequencer is at the first tick of a Color, and the Color is `c`. -/
def colorDue (c : Color) (s : State) : Bool :=
  byteDue c.red s && decide (s.regs.ch = 0) && decide (stripColor s.mem s.regs.bas s.regs.led = c)

/-- `BIT1` (R111), where it is due (log 6). -/
def execBit1 (s : State) : Out := if bitDue true s then emitBit true s else .refused .stepNotDue

/-- `BIT0` (R112), where it is due (log 6). -/
def execBit0 (s : State) : Out := if bitDue false s then emitBit false s else .refused .stepNotDue

/-- `EMIT_BYTE v` (R113), where it is due (log 6). -/
def execEmitByte (v : Byte) (s : State) : Out := if byteDue v s then emitByte v s else .refused .stepNotDue

/-- `EMIT_COLOR c` (R114), where it is due (log 6). -/
def execEmitColor (c : Color) (s : State) : Out := if colorDue c s then emitColor c s else .refused .stepNotDue

/-- `LATCH` (R118): `m` low ticks of the idle line, "produced by the caller waiting". -/
def execLatch (m : Nat) (s : State) : Out :=
  if s.regs.busy then .refused .lineInUse else .next (s.drive (List.replicate m false))

/-- `frame_bit(strip, n)` (R74). -/
def frameBit (strip : Nat → Color) (n : Nat) : Bit := (chan (strip (n / 24)) (n % 24 / 8)).getLsbD (7 - n % 8)

/-- The frame's bit list (R74). -/
def frameBits (strip : Nat → Color) (count : Nat) : List Bit := (List.range (24 * count)).map (frameBit strip)

/-- `wave(strip, count)` (R94). -/
def wave (c : Cfg) (strip : Nat → Color) (count : Nat) : Trace := (frameBits strip count).flatMap (sym c)

end Sys2Proof.Machine
end

