-- ==== Sys2Proof/Machine/Transmit.lean ====
section
/-! DEFINITION. `TRANSMIT` as a whole operation (`40_transmit.md`). -/

namespace Sys2Proof.Machine

/-- `TRANSMIT base, len, count` (R90): the tests of R159; then `IE <- 0` and the registers of R130, the Colors of the
buffer in order, and, with the end of the last slot, `IE <- 1` and `ret(OK)` (R134). -/
def execTransmit (base len count : Nat) (s : State) : Out :=
  command base len count
    (fun t => andThen (accept base count t) (emitColors (stripColors t.mem base count))) s

/-- The command as the sequencer takes it: the same tests, and acceptance alone; the slots follow tick by tick (R130, R136). -/
def issue (base len count : Nat) (s : State) : Out := command base len count (accept base count) s

end Sys2Proof.Machine
end

