-- ==== Sys2Proof/Machine/Dispatch.lean ====
section
/-! DEFINITION. One arm per operation of the opcode table (R79). -/

namespace Sys2Proof.Machine

def exec (i : Instr) (s : State) : Host.Outcome State Fault Refusal :=
  match i with
  | .transmit base len count => Sys2Proof.Machine.execTransmit base len count s
  | .emitColor c => Sys2Proof.Machine.execEmitColor c s
  | .emitByte v => Sys2Proof.Machine.execEmitByte v s
  | .bit1 => Sys2Proof.Machine.execBit1 s
  | .bit0 => Sys2Proof.Machine.execBit0 s
  | .latch m => Sys2Proof.Machine.execLatch m s

end Sys2Proof.Machine
end

