-- ==== Sys2Proof/Machine/HostMoves.lean ====
section
/-! DEFINITION. What moves while the block is idle: the host's moves (R83), the idle tick (R135), the interrupt
environment (R156). -/

namespace Sys2Proof.Machine

/-- One host move (R83); with the script at its end the line idles (R135, R184). `WAIT n` is `n` idle ticks. -/
def hostMove (s : State) : Out :=
  match s.script with
  | [] => idleTick s
  | .poke a v :: rest => storeByte a v { s with script := rest }
  | .output :: rest => .next { s with script := rest, pinOe := true }
  | .input :: rest => .next { s with script := rest, pinOe := false }
  | .sei :: rest => .next ({ s with script := rest }.unmask)
  | .cli :: rest => .next ({ s with script := rest }.mask)
  | .transmit base len count :: rest => issue base len count { s with script := rest }
  | .wait 0 :: rest => .next { s with script := rest }
  | .wait (n + 1) :: rest => idleTick { s with script := .wait n :: rest }

/-- `strip = [(r,g,b), ...] at base`: the `POKE` lines it abbreviates (R83), by the layout of R51. -/
def pokeStrip : Nat → List Color → List HostMove
  | _, [] => []
  | base, c :: cs => .poke base c.red :: .poke (base + 1) c.green :: .poke (base + 2) c.blue :: pokeStrip (base + 3) cs

/-- A boundary with the block idle: with `IE = 1` the environment may enter a handler, whose moves come before what the
host has left (R156); otherwise the host moves. -/
def idleMove (s : State) : Out :=
  match s.handlers with
  | [] => hostMove s
  | h :: hs =>
    if s.ie then
      if h.delay = 0 then .next { s with handlers := hs, script := h.body ++ s.script }
      else hostMove { s with handlers := { h with delay := h.delay - 1 } :: hs }
    else hostMove s

end Sys2Proof.Machine
end

