-- ==== Sys2Proof/Machine/Run.lean ====
section
/-! DEFINITION. What one step does: the reset input, an operation word, a busy tick or an idle move, in that order (log 24);
and how an operation word is presented to a machine (log 13). -/

namespace Sys2Proof.Machine

/-- Run the operation a word stands for, as a whole. -/
def runWord (w : OpWord) (s : State) : Out :=
  match decode s.cfg w with
  | .ok i => exec i s
  | .error e => .refused (.illegalWord e)

/-- A boundary with no `rst`: a word on the port runs as a whole; otherwise the sequencer ticks while busy (R131), and the
others move while it is idle. -/
def boundary (s : State) : Out :=
  match s.port with
  | some w => runWord w { s with port := none }
  | none => if s.regs.busy then busyTick s else idleMove s

/-- One step. A result delivered before is gone (R29); an `rst` that is due comes first (R182). -/
def oneStep (s : State) : Out :=
  if s.cfg.WF then
    match s.resets with
    | [] => boundary { s with ret := none }
    | e :: es =>
      if e.delay = 0 then .next (({ s with resets := es }).systemReset e)
      else boundary { s with ret := none, resets := { e with delay := e.delay - 1 } :: es }
  else .refused .illFormedConfiguration

/-- The bytes of a buffer for which the wire word `w` is the step that is due at its start (R72, R73, R76, R77). -/
def dueBytes (c : Cfg) (w : OpWord) : List Byte :=
  match w.format with
  | .color24 => [BitVec.ofNat 8 (w.bits / 65536), BitVec.ofNat 8 (w.bits / 256), BitVec.ofNat 8 w.bits]
  | .channel8 => [BitVec.ofNat 8 w.bits]
  | .sym => if w.bits = symValue c true then [0x80#8] else [0x00#8]
  | .cmd => []
  | .idle => []

/-- Write bytes at consecutive addresses. -/
def Memory.writeAll : Memory → Nat → List Byte → Memory
  | m, _, [] => m
  | m, a, v :: vs => Memory.writeAll (m.write a v) (a + 1) vs

/-- Present `w` so that the very next step runs it (log 13). A wire word exists only inside a command, so it is presented
within one of a single Color at address 0 whose bytes make it due. A command, or a low run, is presented to the idle block,
a command with the pin made an output, as its caller must have done (R183 (1)). No `rst` comes first. -/
def presentWord (w : OpWord) (s : State) : State :=
  match w.format with
  | .cmd => { s with port := some w, resets := [], regs := Regs.zero, pinOe := true }
  | .idle => { s with port := some w, resets := [], regs := Regs.zero }
  | .color24 | .channel8 | .sym =>
    let bytes := dueBytes s.cfg w
    { s with
      port := some w, resets := [], pinOe := true, ie := false, mem := s.mem.writeAll 0 bytes,
      regs := { busy := true, bas := 0, cnt := 1, led := 0, ch := 0, k := 0, ph := 0, sh := bytes.headD 0 } }

end Sys2Proof.Machine
end

