-- ==== Sys2Proof/Machine/Step.lean ====
section
/-! DEFINITION. One step of the machine, and the placing of an operation word where the next step reads it. -/

namespace Sys2Proof.Machine

/-- One step (R130 to R136, R156, R180). -/
def step (s : State) : Host.Outcome State Fault Refusal := oneStep s

/-- The opcode table's word `w` of `nbits` bits, presented so that the next step runs it (log 13). -/
def State.withFetchWord (s : State) (nbits w : Nat) : State := presentWord (tableWord s.cfg nbits w) s

end Sys2Proof.Machine
end

