-- ==== Sys2Proof/Safety.lean ====
section
/-! DEFINITION. The invariants of the state (R33, R35, R36, R81), separated frames (R187), and runs, in the terms the
statements use. -/

namespace Sys2Proof

open Sys2Proof.Machine

/-- `n` steps of the machine, stopping at the first fault or refusal. -/
def stepN : Nat → State → Out
  | 0, s => .next s
  | n + 1, s => andThen (step s) (stepN n)

/-- What holds at every tick with `busy = 1` (R36), with the widths of R21, and with the readable buffer that acceptance
has tested (R92 (3)). -/
structure BusyInv (s : State) : Prop where
  ie_clear : s.ie = false
  pinOe_set : s.pinOe = true
  cnt_pos : 1 ≤ s.regs.cnt
  cnt_fits : s.regs.cnt < 2 ^ s.cfg.wCount
  led_lt : s.regs.led < s.regs.cnt
  ph_lt : s.regs.ph < s.cfg.nT
  buffer_fits : s.regs.bas + 3 * s.regs.cnt ≤ 2 ^ s.cfg.wAddr
  buffer_backed : ∀ a, s.regs.bas ≤ a → a < s.regs.bas + 3 * s.regs.cnt → backed s.cfg a = true
  sh_eq : s.regs.sh = s.mem.read (chanAddr s.regs.bas s.regs.led s.regs.ch.val)

/-- The invariant of the state: a well-formed configuration (R8), a memory in canonical form that lists backed addresses
only (R50, R58), the idle registers (R33), the busy registers (R36), and `low_run` as R35 defines it. -/
structure Inv (s : State) : Prop where
  cfg_wf : s.cfg.WF
  mem_wf : Memory.wf s.mem = true
  mem_backed : ∀ x ∈ s.mem, backed s.cfg x.1 = true
  idle_regs : s.regs.busy = false → s.regs = Regs.zero
  busy_regs : s.regs.busy = true → BusyInv s
  low_run_eq : s.lowRun = lowRunAfter 0 s.trace

/-- A trace made of low ticks and of whole frames, nothing else (R81, R94). -/
def WholeFrames (c : Cfg) (w : Trace) : Prop :=
  ∃ ws : List Trace, (∀ x ∈ ws, x = [false] ∨ ∃ strip count, x = wave c strip count) ∧ w = ws.flatten

/-- The part of the current frame that is already on the line: its completed slots, and the elapsed ticks of the slot
being sent (R131, R133). -/
def frameSoFar (s : State) : Trace :=
  if s.regs.busy then s.sent.flatMap (sym s.cfg) ++ (sym s.cfg s.regs.curBit).take s.regs.ph else []

/-- The line carries low ticks, whole frames, and, while busy, the beginning of the frame of the command in progress, whose
sent bits are the first bits of that frame (R74, R81, R137). -/
def LineInv (s : State) : Prop :=
  (∃ before, WholeFrames s.cfg before ∧ s.trace = before ++ frameSoFar s) ∧
  (s.regs.busy = true →
    s.sent = (List.range s.regs.bitIndex).map (frameBit (stripColor s.mem s.regs.bas)))

/-- The slots of `bits` have been sent from `s` (R110, R131, R133): they are on the line and in `sent`, and the position
has advanced by as many bits; after the last bit of the frame the command has completed (R134). -/
def SlotsSent (s : State) (bits : List Bit) (t : State) : Prop :=
  t.trace = s.trace ++ bits.flatMap (sym s.cfg) ∧ t.sent = s.sent ++ bits ∧
  if s.regs.bitIndex + bits.length < 24 * s.regs.cnt then
    t.regs.busy = true ∧ t.regs.bas = s.regs.bas ∧ t.regs.cnt = s.regs.cnt ∧ t.regs.ph = 0 ∧
    t.regs.bitIndex = s.regs.bitIndex + bits.length ∧ t.ie = s.ie ∧ t.ret = s.ret
  else t.regs = Regs.zero ∧ t.ie = true ∧ t.ret = some .ok

/-- Nothing of the host, of the configuration or of the inputs has changed, and no byte of memory. -/
def HostSideUnchanged (s t : State) : Prop :=
  t.cfg = s.cfg ∧ t.pinOe = s.pinOe ∧ t.mem = s.mem ∧ t.port = s.port ∧ t.script = s.script ∧
  t.handlers = s.handlers ∧ t.resets = s.resets ∧ t.fresh = s.fresh ∧ ∀ a, t.mem.read a = s.mem.read a

/-- A command issued here with `count > 0` is separated from what was on the line before (R187). -/
def Separated (s : State) : Prop := s.cfg.nReset ≤ s.lowRun

/-- A run has ended when the script has no line left and the block is idle (R184). -/
abbrev RunEnded (s : State) : Prop := s.script = [] ∧ s.regs.busy = false

/-- No `rst` is due at the next `n` boundaries; one may be pending after them (R180, log 9). -/
abbrev NoResetWithin (n : Nat) (s : State) : Prop := ∀ e ∈ s.resets.head?, n ≤ e.delay

/-- The coming assertions of `rst` after `n` boundaries at which none was due: the first one's delay has counted down (log 9). -/
def resetsAfter (n : Nat) (rs : List ResetEvent) : List ResetEvent :=
  rs.modifyHead fun e => { e with delay := e.delay - n }

/-- No handler enters at this boundary: `IE = 0` (R156), or the first one's turn has not come (log 8). -/
abbrev NoHandlerEnters (s : State) : Prop := s.ie = true → ∀ h ∈ s.handlers.head?, 0 < h.delay

/-- The waiting handlers after an idle boundary at which none entered: with `IE = 1` the first one's delay has counted down
(log 8). -/
def handlersAfter (s : State) : List Handler :=
  if s.ie then s.handlers.modifyHead fun h => { h with delay := h.delay - 1 } else s.handlers

/-- The host's line, or the idle tick, is what moves at this boundary, and no `rst` is due at the next `n`. -/
abbrev Undisturbed (n : Nat) (s : State) : Prop := s.port = none ∧ NoHandlerEnters s ∧ NoResetWithin n s

/-- A command that the tests of R92 and of its port let through, issued to the idle block. -/
abbrev Admitted (s : State) (base len count : Nat) : Prop :=
  s.regs.busy = false ∧ s.cfg.OperandsFit base len count ∧ s.pinOe = true ∧
  bufferFits s.cfg base len = true ∧ bufferReadable s.cfg base len = true

end Sys2Proof
end

