-- ==== Sys2Proof/Certificates/Slice0/Obligations.lean ====
section
/-! DEFINITION. The statements for the provers, from the numbered rules of `spec/`. -/

open Sys2Proof Sys2Proof.Machine

/-! ### Encodings (`30_encoding.md`) -/

/-- R70 to R78: no bit of an encoding is dropped. The decoder reads back every well-formed instruction, with every operand
at every value, under every well-formed configuration. -/
def Obligations.DecodeOfEncodeIsTheInstruction : Prop :=
  ∀ (c : Cfg) (i : Instr), c.WF → i.wf c = true → decode c (encode c i) = .ok i

/-- Each word has one meaning: a word that decodes is the encoding of what it decodes to, and that is well formed. -/
def Obligations.EncodeOfDecodeIsTheWord : Prop :=
  ∀ (c : Cfg) (w : OpWord) (i : Instr), decode c w = .ok i → encode c i = w ∧ i.wf c = true

/-- R80: "Every triple `(base, len, count)` decodes"; the fields stand where R70 puts them. -/
def Obligations.EveryCommandWordDecodes : Prop :=
  ∀ (c : Cfg) (bits : Nat), bits < 2 ^ (c.wAddr + 2 * c.wCount) →
    ∃ base len count, c.OperandsFit base len count ∧
      bits = count * 2 ^ (c.wAddr + c.wCount) + len * 2 ^ c.wAddr + base ∧
      decode c ⟨.cmd, c.wAddr + 2 * c.wCount, bits⟩ = .ok (.transmit base len count)

/-- Words written out from the spec (P1, P3, V1 to V4, V33, R76 to R78) decode to what they stand for, and words the spec
gives no decoding are rejected by name (V73, R78). -/
def Obligations.WordsOfTheSpecDecode : Prop :=
  decode Cfg.refA ⟨.cmd, 48, 0x000100010100⟩ = .ok (.transmit 0x0100 1 1) ∧
  decode Cfg.refA ⟨.cmd, 48, 0x000200020200⟩ = .ok (.transmit 0x0200 2 2) ∧
  decode Cfg.refA ⟨.color24, 24, 0xA500FF⟩ = .ok (.emitColor ⟨0xA5, 0x00, 0xFF⟩) ∧
  decode Cfg.refA ⟨.channel8, 8, 0b10100101⟩ = .ok (.emitByte 0xA5) ∧
  decode Cfg.refA ⟨.sym, 10, 0b1111110000⟩ = .ok .bit1 ∧
  decode Cfg.refA ⟨.sym, 10, 0b1110000000⟩ = .ok .bit0 ∧
  decode Cfg.refB ⟨.sym, 20, 0b11111111111100000000⟩ = .ok .bit1 ∧
  decode Cfg.refB ⟨.sym, 20, 0b11111100000000000000⟩ = .ok .bit0 ∧
  decode Cfg.refA ⟨.idle, 640, 0⟩ = .ok (.latch 640) ∧
  decode Cfg.refA ⟨.sym, 10, 0b1111100000⟩ = .error .notASymbol ∧
  decode Cfg.refA ⟨.idle, 639, 0⟩ = .error .tooShortForLatch

/-- R75: the three parts of a slot: head high, data part the bit, tail low, `N_T` ticks in all. -/
def Obligations.SlotHasHeadDataTail : Prop :=
  ∀ (c : Cfg) (d : Bit), c.WF →
    sym c d = List.replicate c.n0H true ++ List.replicate (c.n1H - c.n0H) d ++ List.replicate (c.nT - c.n1H) false ∧
    (sym c d).length = c.nT

/-- R119: the nominal decoder gives back the frame's bit list from its wave. -/
def Obligations.NominalDecoderInvertsTheWave : Prop :=
  ∀ (c : Cfg) (strip : Nat → Color) (count : Nat), c.WF →
    nominalDecode c (wave c strip count) = some (frameBits strip count)

/-- R99: two frames with the same trace have the same number of Colors and the same Colors. -/
def Obligations.WaveIsInjective : Prop :=
  ∀ (c : Cfg) (strip strip' : Nat → Color) (count count' : Nat), c.WF →
    wave c strip count = wave c strip' count' →
    count = count' ∧ ∀ i, i < count → strip i = strip' i

/-- R98: the shape of the wave: its length, its high ticks, its first and last tick. -/
def Obligations.WaveShape : Prop :=
  ∀ (c : Cfg) (strip : Nat → Color) (count : Nat), c.WF →
    (wave c strip count).length = 24 * count * c.nT ∧
    (wave c strip count).count true =
      c.n1H * (frameBits strip count).count true + c.n0H * (frameBits strip count).count false ∧
    (0 < count → (wave c strip count).head? = some true ∧ (wave c strip count).getLast? = some false)

/-- R98: rising edges stand at the first tick of every slot and nowhere else, whatever the data. -/
def Obligations.RisingEdgesAreEvenlySpaced : Prop :=
  ∀ (c : Cfg) (strip : Nat → Color) (count d : Nat), c.WF →
    (((wave c strip count)[d]? = some true ∧ (d = 0 ∨ (wave c strip count)[d - 1]? = some false)) ↔
      (d < 24 * count * c.nT ∧ d % c.nT = 0))

/-- R115: inside a frame no low run is longer than `N_T - N_0H`, which is below `N_RESET`: the block never produces a
`LATCH` inside a frame. -/
def Obligations.NoLatchInsideAFrame : Prop :=
  ∀ (c : Cfg) (strip : Nat → Color) (count m : Nat) (before after : Trace), c.WF →
    wave c strip count = before ++ List.replicate m false ++ true :: after →
    m ≤ c.nT - c.n0H ∧ c.nT - c.n0H < c.nT ∧ c.nT ≤ c.nReset

/-- R8, R9: both reference instantiations are well formed, with the further well-formed rows of the spec's table (V12, V17,
V18), and the ill-formed rows of that table are not (V19a to V19f). -/
def Obligations.ReferenceConfigurationsAreWellFormed : Prop :=
  Cfg.refA.WF ∧ Cfg.refB.WF ∧ (Cfg.ofCounts 100 1 12 7 4 800).WF ∧ (Cfg.ofCounts 125 1 10 7 2 640).WF ∧
  (Cfg.ofCounts 125 1 10 5 4 640).WF ∧
  ¬ (Cfg.ofCounts 125 1 10 6 6 640).WF ∧ ¬ (Cfg.ofCounts 125 1 10 3 6 640).WF ∧
  ¬ (Cfg.ofCounts 125 1 10 8 3 640).WF ∧ ¬ (Cfg.ofCounts 125 1 12 6 3 640).WF ∧
  ¬ (Cfg.ofCounts 125 1 10 10 3 640).WF ∧ ¬ (Cfg.ofCounts 125 1 10 6 3 639).WF

/-! ### The operation `TRANSMIT` (`40_transmit.md`) -/

/-- R94, R95, R97, R100, R56: an admitted command with `0 < count <= len` completes. Its whole effect: the wave on the
line, `IE = 1`, `ret(OK)`, the registers zero, the frame's bits in `sent`, `3 count` reads in ascending order. -/
def Obligations.TransmitSendsTheWholeFrame : Prop :=
  ∀ (s : State) (base len count : Nat), s.cfg.WF → Admitted s base len count → 0 < count → count ≤ len →
    exec (.transmit base len count) s = .next { s with
      regs := Regs.zero
      ie := true
      ret := some .ok
      trace := s.trace ++ wave s.cfg (stripColor s.mem base) count
      lowRun := s.cfg.nT - highTicks s.cfg (frameBit (stripColor s.mem base) (24 * count - 1))
      sent := frameBits (stripColor s.mem base) count
      reads := s.reads ++ (List.range (3 * count)).map (base + ·) }

/-- R96: with `count = 0` the command completes at once; its only effects are `IE <- 1` and `ret(OK)`. -/
def Obligations.TransmitOfNoColorsCompletesAtOnce : Prop :=
  ∀ (s : State) (base len : Nat), Admitted s base len 0 →
    exec (.transmit base len 0) s = .next { s with ie := true, ret := some .ok }

/-- R93, R151: with `count > len` the command ends with `InvalidArgument`; its only effects are `IE <- 1` and the result. -/
def Obligations.TransmitBeyondTheBufferIsInvalidArgument : Prop :=
  ∀ (s : State) (base len count : Nat), Admitted s base len count → len < count →
    exec (.transmit base len count) s = .next { s with ie := true, ret := some .invalidArgument }

/-- R92: the three refusals, in this order, before anything else is tested. -/
def Obligations.TransmitRefusalsComeFirstInOrder : Prop :=
  ∀ (s : State) (base len count : Nat), s.regs.busy = false → s.cfg.OperandsFit base len count →
    (s.pinOe = false → exec (.transmit base len count) s = .refused .pinNotOutput) ∧
    (s.pinOe = true → 2 ^ s.cfg.wAddr < base + 3 * len →
      exec (.transmit base len count) s = .refused .bufferDoesNotFit) ∧
    (s.pinOe = true → base + 3 * len ≤ 2 ^ s.cfg.wAddr →
      (∃ a, base ≤ a ∧ a < base + 3 * len ∧ backed s.cfg a = false) →
      exec (.transmit base len count) s = .refused .bufferUnreadable)

/-- R100: the end state of a completed command, on every path; and everything else is unchanged, every byte of memory
among it. -/
def Obligations.TransmitEndState : Prop :=
  ∀ (s t : State) (base len count : Nat), Inv s → exec (.transmit base len count) s = .next t →
    t.regs = Regs.zero ∧ t.pin = false ∧ t.ie = true ∧ t.pinOe = true ∧ t.ret ≠ none ∧ HostSideUnchanged s t

/-- R56: a completed command reads its `3 count` bytes in ascending order, once each; with `count > len`, or `count = 0`,
it reads none. -/
def Obligations.TransmitReadsTheBufferOnceInOrder : Prop :=
  ∀ (s t : State) (base len count : Nat), exec (.transmit base len count) s = .next t →
    t.reads = s.reads ++ (if count ≤ len then (List.range (3 * count)).map (base + ·) else [])

/-- R95, R26: the value `IE` had before a command is neither read nor restored: it makes no difference at all. -/
def Obligations.TransmitDoesNotDependOnInterruptEnable : Prop :=
  ∀ (s : State) (base len count : Nat) (x : Bool),
    nextState (exec (.transmit base len count) { s with ie := x }) = nextState (exec (.transmit base len count) s)

/-- R101, R186: a command issued too early is accepted and sent like any other: how long the line has been low before a
frame makes no difference to what the command does. -/
def Obligations.TransmitDoesNotDependOnLatchPeriod : Prop :=
  ∀ (s : State) (base len count n : Nat), s.cfg.WF → Admitted s base len count → 0 < count → count ≤ len →
    exec (.transmit base len count) { s with lowRun := n } = exec (.transmit base len count) s

/-- R118, R187: after a frame the low run is the tail of its last slot; a wait of `w` ticks makes it that much longer; a
wait of `N_RESET - (N_T - N_1H)` ticks separates the next frame whatever the last bit was. DESIGN CHOICE (log 19): the wait is
written as the operation `LATCH` of `w` ticks, which the model runs for every `w`, also below `N_RESET`, where R78 and R118
know no `LATCH`. -/
def Obligations.WaitingAfterAFrameSeparatesTheNext : Prop :=
  ∀ (s t u : State) (base len count w : Nat), s.cfg.WF → Admitted s base len count → 0 < count → count ≤ len →
    exec (.transmit base len count) s = .next t → exec (.latch w) t = .next u →
    u.lowRun = s.cfg.nT - highTicks s.cfg (frameBit (stripColor s.mem base) (24 * count - 1)) + w ∧
    (s.cfg.nReset - (s.cfg.nT - s.cfg.n1H) ≤ w → Separated u)

/-! ### The steps of a frame (`41_wire_symbols.md`) -/

/-- R111: where a 1 is due, `BIT1` completes: `N_1H` ticks high, then `N_T - N_1H` ticks low. DESIGN CHOICE (log 6): as an
operation of its own it runs where it is due. -/
def Obligations.Bit1SendsItsSlot : Prop :=
  ∀ s : State, Inv s → bitDue true s = true →
    ∃ t, exec .bit1 s = .next t ∧ SlotsSent s [true] t ∧
      t.trace = s.trace ++ (List.replicate s.cfg.n1H true ++ List.replicate (s.cfg.nT - s.cfg.n1H) false)

/-- R112: where a 0 is due, `BIT0` completes: `N_0H` ticks high, then `N_T - N_0H` ticks low. DESIGN CHOICE (log 6): as an
operation of its own it runs where it is due. -/
def Obligations.Bit0SendsItsSlot : Prop :=
  ∀ s : State, Inv s → bitDue false s = true →
    ∃ t, exec .bit0 s = .next t ∧ SlotsSent s [false] t ∧
      t.trace = s.trace ++ (List.replicate s.cfg.n0H true ++ List.replicate (s.cfg.nT - s.cfg.n0H) false)

/-- R113: where the byte `v` is due, `EMIT_BYTE v` completes: its eight bits, most significant first. DESIGN CHOICE (log 6):
as an operation of its own it runs where it is due. -/
def Obligations.EmitByteSendsEightSlots : Prop :=
  ∀ (s : State) (v : Byte), Inv s → byteDue v s = true →
    ∃ t, exec (.emitByte v) s = .next t ∧
      SlotsSent s [v.getLsbD 7, v.getLsbD 6, v.getLsbD 5, v.getLsbD 4, v.getLsbD 3, v.getLsbD 2, v.getLsbD 1, v.getLsbD 0] t

/-- R114: where the Color `c` is due, `EMIT_COLOR c` completes: red, then green, then blue, each most significant first.
DESIGN CHOICE (log 6): as an operation of its own it runs where it is due. -/
def Obligations.EmitColorSendsRedGreenBlue : Prop :=
  ∀ (s : State) (c : Color), Inv s → colorDue c s = true →
    ∃ t, exec (.emitColor c) s = .next t ∧
      SlotsSent s (byteBits c.red ++ byteBits c.green ++ byteBits c.blue) t

/-- On the idle line `LATCH` completes: `m` low ticks, nothing else. DESIGN CHOICE (log 19): that `LATCH`, which R118 gives as a
run of at least `N_RESET` low ticks that no step of the block emits, is as an operation a wait of `m` low ticks, for every
`m`, is the model's. R118, R187: with `N_RESET` of them the next frame is separated. -/
def Obligations.LatchIsARunOfLowTicks : Prop :=
  ∀ (s : State) (m : Nat), s.regs.busy = false →
    exec (.latch m) s = .next { s with trace := s.trace ++ List.replicate m false, lowRun := s.lowRun + m } ∧
    (s.cfg.nReset ≤ m → ∀ t, exec (.latch m) s = .next t → Separated t)

/-- R79: the steps of a frame exist only inside a command: with the block idle each of them is refused (the refusal and its
name are the model's, log 6). -/
def Obligations.FrameStepsExistOnlyInsideACommand : Prop :=
  ∀ (s : State) (c : Color) (v : Byte), s.regs.busy = false →
    exec (.emitColor c) s = .refused .stepNotDue ∧ exec (.emitByte v) s = .refused .stepNotDue ∧
    exec .bit1 s = .refused .stepNotDue ∧ exec .bit0 s = .refused .stepNotDue

/-- Where an operation has no meaning it is refused by name: a step of a frame that is not the one due (R79, log 6), a latch
or a command while one is in progress (R91, log 14, log 19), an operand its port field cannot carry (R28, log 12). The
names, and refusing rather than stopping in some other way, are the model's. -/
def Obligations.WhatIsNotDueIsRefusedByName : Prop :=
  ∀ (s : State) (c : Color) (v : Byte) (m base len count : Nat),
    (bitDue true s = false → exec .bit1 s = .refused .stepNotDue) ∧
    (bitDue false s = false → exec .bit0 s = .refused .stepNotDue) ∧
    (byteDue v s = false → exec (.emitByte v) s = .refused .stepNotDue) ∧
    (colorDue c s = false → exec (.emitColor c) s = .refused .stepNotDue) ∧
    (s.regs.busy = true → exec (.latch m) s = .refused .lineInUse ∧
      exec (.transmit base len count) s = .refused .commandWhileBusy) ∧
    (s.regs.busy = false → ¬ s.cfg.OperandsFit base len count →
      exec (.transmit base len count) s = .refused .operandTooWide)

/-- The frame of `EMIT_COLOR`, `EMIT_BYTE`, `BIT1`, `BIT0` and `LATCH`: "Flags written: none" (R110 to R114), so `IE`
changes only with the completion of the command (R134); the host's side and every byte of memory never change. `LATCH` as an
operation is the model's (log 19). -/
def Obligations.FrameStepsChangeNothingElse : Prop :=
  ∀ (s t : State) (i : Instr), (∀ base len count, i ≠ .transmit base len count) → exec i s = .next t →
    HostSideUnchanged s t ∧ (t.regs.busy = s.regs.busy → t.ie = s.ie ∧ t.ret = s.ret) ∧
    (s.regs.busy = false → t.regs = s.regs ∧ t.sent = s.sent ∧ t.reads = s.reads)

/-! ### The sequencer (`42_sequencer.md`) -/

/-- A step runs the decoded instruction: a word on the port that decodes to `i` makes the step `exec i`, the port emptied
and the result delivered before gone (R29); a word that has no decoding (R78, R119) makes the step a refusal that says why.
DESIGN CHOICE (log 5, log 13, log 24): that a word on the port runs as a whole, in one step, before any other agent moves and
also while the block is busy, is the model's; so is the refusal's name. -/
def Obligations.StepRunsTheDecodedWord : Prop :=
  ∀ (s : State) (w : OpWord), s.cfg.WF → NoResetWithin 1 s → s.port = some w →
    (∀ i, decode s.cfg w = .ok i →
      step s = exec i { s with port := none, ret := none, resets := resetsAfter 1 s.resets }) ∧
    (∀ e, decode s.cfg w = .error e → step s = .refused (.illegalWord e))

/-- R130: acceptance, with every register it writes; nothing else of the block changes and no tick passes. Handlers may be
waiting and an `rst` may be pending; what their delays do is the model's (log 8, log 9). -/
def Obligations.AcceptanceLoadsTheRegisters : Prop :=
  ∀ (s : State) (base len count : Nat) (rest : List HostMove), s.cfg.WF → Undisturbed 1 s →
    s.script = .transmit base len count :: rest → Admitted s base len count → 0 < count → count ≤ len →
    step s = .next { s with
      script := rest
      ret := none
      handlers := handlersAfter s
      resets := resetsAfter 1 s.resets
      ie := false
      regs := { busy := true, bas := base, cnt := count, led := 0, ch := 0, k := 0, ph := 0, sh := s.mem.read base }
      sent := []
      reads := s.reads ++ [base] }

/-- R136: a command with `count = 0` or `count > len` is a single boundary transition whose only change of state is
`IE <- 1`, and which delivers its result. Handlers may be waiting and an `rst` pending (their delays: log 8, log 9). -/
def Obligations.ZeroTickCommandsTakeOneBoundary : Prop :=
  ∀ (s : State) (base len count : Nat) (rest : List HostMove), s.cfg.WF → Undisturbed 1 s →
    s.script = .transmit base len count :: rest → Admitted s base len count →
    (count = 0 → step s = .next { s with
      script := rest, handlers := handlersAfter s, resets := resetsAfter 1 s.resets, ie := true, ret := some .ok }) ∧
    (len < count → step s = .next { s with
      script := rest, handlers := handlersAfter s, resets := resetsAfter 1 s.resets
      ie := true, ret := some .invalidArgument })

/-- R30, R131, R132: a busy tick holds the pin for one tick, whatever comes after; the pin is 1 in the head, the bit in the
data part, 0 in the tail. -/
def Obligations.BusyTickDrivesHeadDataTail : Prop :=
  ∀ s t : State, NoResetWithin 1 s → s.port = none → s.regs.busy = true → step s = .next t →
    t.trace = s.trace ++ [s.pin] ∧ t.lowRun = (if s.pin then 0 else s.lowRun + 1) ∧
    (s.regs.ph < s.cfg.n0H → s.pin = true) ∧
    (s.cfg.n0H ≤ s.regs.ph → s.regs.ph < s.cfg.n1H → s.pin = s.regs.sh.getLsbD (7 - s.regs.k.val)) ∧
    (s.cfg.n1H ≤ s.regs.ph → s.pin = false)

/-- R133: the advance, with the five cases of its nest but the last; every register not assigned keeps its value. An `rst`
may be pending (its delay: log 9). -/
def Obligations.AdvanceFollowsTheCounterNest : Prop :=
  ∀ s : State, Inv s → NoResetWithin 1 s → s.port = none → s.regs.busy = true →
    let r := s.regs
    let s₀ : State := { s with
      resets := resetsAfter 1 s.resets, ret := none, trace := s.trace ++ [s.pin], lowRun := if s.pin then 0 else s.lowRun + 1 }
    let s₁ : State := { s₀ with sent := s.sent ++ [r.sh.getLsbD (7 - r.k.val)] }
    (r.ph < s.cfg.nT - 1 → step s = .next { s₀ with regs := { r with ph := r.ph + 1 } }) ∧
    (r.ph = s.cfg.nT - 1 → r.k.val < 7 → step s = .next { s₁ with regs := { r with ph := 0, k := r.k + 1 } }) ∧
    (r.ph = s.cfg.nT - 1 → r.k.val = 7 → r.ch.val < 2 →
      step s = .next { s₁ with
        regs := { r with
          ph := 0, k := 0, ch := r.ch + 1, sh := s.mem.read (r.bas + 3 * r.led + (r.ch.val + 1)) }
        reads := s.reads ++ [r.bas + 3 * r.led + (r.ch.val + 1)] }) ∧
    (r.ph = s.cfg.nT - 1 → r.k.val = 7 → r.ch.val = 2 → r.led < r.cnt - 1 →
      step s = .next { s₁ with
        regs := { r with ph := 0, k := 0, ch := 0, led := r.led + 1, sh := s.mem.read (r.bas + 3 * (r.led + 1)) }
        reads := s.reads ++ [r.bas + 3 * (r.led + 1)] })

/-- R134: completion at the last tick of the last slot: the registers cleared, `IE <- 1`, `ret(OK)`; the pin stays low.
An `rst` may be pending (its delay: log 9). -/
def Obligations.CompletionClearsTheBlock : Prop :=
  ∀ s : State, Inv s → NoResetWithin 1 s → s.port = none → s.regs.busy = true →
    s.regs.led = s.regs.cnt - 1 → s.regs.ch.val = 2 → s.regs.k.val = 7 → s.regs.ph = s.cfg.nT - 1 →
    s.pin = false ∧
    step s = .next { s with
      resets := resetsAfter 1 s.resets
      regs := Regs.zero
      ie := true
      ret := some .ok
      trace := s.trace ++ [false]
      lowRun := s.lowRun + 1
      sent := s.sent ++ [s.regs.sh.getLsbD 0] }

/-- R135: an idle tick appends 0 to `trace`, adds 1 to `low_run`, and changes no register of the block. Handlers may be
waiting and an `rst` pending (their delays: log 8, log 9); that the machine idles at the end of the script is the model's
(log 7). -/
def Obligations.IdleTickKeepsTheLineLow : Prop :=
  ∀ (s : State) (n : Nat) (rest : List HostMove), s.cfg.WF → Undisturbed 1 s → s.regs.busy = false →
    let t : State := { s with
      handlers := handlersAfter s, resets := resetsAfter 1 s.resets, ret := none
      trace := s.trace ++ [false], lowRun := s.lowRun + 1 }
    (s.script = [] → step s = .next t) ∧
    (s.script = .wait (n + 1) :: rest → step s = .next { t with script := .wait n :: rest })

/-- R137, R156: what the state is during every tick of an accepted command, and what the pin is. No handler enters, though
handlers may be waiting; an `rst` may be pending beyond tick `d` (their delays: log 8, log 9). -/
def Obligations.TicksFollowTheFrame : Prop :=
  ∀ (s : State) (base len count d : Nat) (rest : List HostMove), s.cfg.WF → Undisturbed (1 + d) s →
    s.script = .transmit base len count :: rest → Admitted s base len count → 0 < count → count ≤ len →
    d < 24 * count * s.cfg.nT →
    ∃ t, stepN (1 + d) s = .next t ∧
      t.regs.busy = true ∧ t.ie = false ∧ t.mem = s.mem ∧ t.script = rest ∧
      t.handlers = handlersAfter s ∧ t.resets = resetsAfter (1 + d) s.resets ∧
      t.regs.led = d / s.cfg.nT / 24 ∧ t.regs.ch.val = d / s.cfg.nT % 24 / 8 ∧ t.regs.k.val = d / s.cfg.nT % 8 ∧
      t.regs.ph = d % s.cfg.nT ∧ t.regs.sh = chan (stripColor s.mem base t.regs.led) t.regs.ch.val ∧
      t.pin = decide (d % s.cfg.nT < highTicks s.cfg (frameBit (stripColor s.mem base) (d / s.cfg.nT))) ∧
      t.trace = s.trace ++ (wave s.cfg (stripColor s.mem base) count).take d

/-- R137: the sequencer and the operation agree. From the host's line to the completion boundary the machine, tick by tick,
reaches the state the whole operation gives, after exactly `24 count N_T` ticks. No handler enters in between, though handlers
may be waiting (R156); an `rst` may be pending beyond the completion (their delays: log 8, log 9). That the operation also
runs as a whole is the model's (log 5). -/
def Obligations.TickByTickAgreesWithTheOperation : Prop :=
  ∀ (s : State) (base len count : Nat) (rest : List HostMove), s.cfg.WF →
    Undisturbed (1 + 24 * count * s.cfg.nT) s →
    s.script = .transmit base len count :: rest → Admitted s base len count → count ≤ len →
    stepN (1 + 24 * count * s.cfg.nT) s = exec (.transmit base len count) { s with
      script := rest, ret := none
      handlers := handlersAfter s, resets := resetsAfter (1 + 24 * count * s.cfg.nT) s.resets }

/-- R110 to R114, R133: each step of a frame, run as a whole, is what the sequencer does tick by tick. Handlers may be waiting
and an `rst` pending beyond the step (its delay: log 9). That a step also runs as a whole, where it is due, is the model's
(log 5, log 6). -/
def Obligations.FrameStepsAreTheirTicks : Prop :=
  ∀ s : State, Inv s → s.port = none →
    let after (n : Nat) : State := { s with ret := none, resets := resetsAfter n s.resets }
    (bitDue true s = true → NoResetWithin s.cfg.nT s → stepN s.cfg.nT s = exec .bit1 (after s.cfg.nT)) ∧
    (bitDue false s = true → NoResetWithin s.cfg.nT s → stepN s.cfg.nT s = exec .bit0 (after s.cfg.nT)) ∧
    (∀ v, byteDue v s = true → NoResetWithin (8 * s.cfg.nT) s →
      stepN (8 * s.cfg.nT) s = exec (.emitByte v) (after (8 * s.cfg.nT))) ∧
    (∀ c, colorDue c s = true → NoResetWithin (24 * s.cfg.nT) s →
      stepN (24 * s.cfg.nT) s = exec (.emitColor c) (after (24 * s.cfg.nT)))

/-- R138: each busy tick that does not complete the command increases the tick offset by one, and from every busy state the
command completes after exactly the ticks that are left, if no `rst` is due before (R182); one may be pending after (log 9). -/
def Obligations.EveryCommandTerminates : Prop :=
  ∀ s : State, Inv s → s.port = none → s.regs.busy = true →
    let left := 24 * s.regs.cnt * s.cfg.nT - s.tickOffset
    (∀ t, step s = .next t → t.regs.busy = true → t.tickOffset = s.tickOffset + 1) ∧
    s.tickOffset < 24 * s.regs.cnt * s.cfg.nT ∧
    (NoResetWithin left s → ∃ t, stepN left s = .next t ∧
      t.regs = Regs.zero ∧ t.ie = true ∧ t.ret = some .ok ∧
      t.script = s.script ∧ t.handlers = s.handlers ∧ t.resets = resetsAfter left s.resets)

/-! ### Invariants -/

/-- The invariant holds after reset, under every well-formed configuration (R36, R38). The value of `IE` and the empty
memory there are the model's choice (log 2, log 3); the statement does not depend on them. -/
def Obligations.InvariantHoldsAtReset : Prop :=
  Inv State.reset ∧ LineInv State.reset ∧ ∀ c : Cfg, c.WF → Inv (State.resetWith c) ∧ LineInv (State.resetWith c)

/-- R33, R36, R50, R35: every step keeps the invariant of the state, from every state that meets it. -/
def Obligations.EveryStepKeepsTheInvariant : Prop :=
  ∀ s t : State, Inv s → step s = .next t → Inv t

/-- R81, R94: every step keeps the line made of low ticks and whole frames, with the frame of the command in progress
begun from its first bit: no Color is skipped, reordered or partially sent, no other pulse ever stands on the line. -/
def Obligations.EveryStepKeepsTheLineMadeOfWholeFrames : Prop :=
  ∀ s t : State, Inv s → LineInv s → step s = .next t → LineInv t

/-! ### Rules about the whole machine -/

/-- R7: no step changes the configuration. -/
def Obligations.ConfigurationNeverChanges : Prop :=
  ∀ s t : State, step s = .next t → t.cfg = s.cfg

/-- R8: under a configuration that is not well formed the machine refuses. -/
def Obligations.IllFormedConfigurationIsRefused : Prop :=
  ∀ s : State, ¬ s.cfg.WF → step s = .refused .illFormedConfiguration

/-- R54: the block never writes memory: a step that changes memory is the host's `POKE` of the idle machine, or the system's
reset, and a `POKE` changes the one byte it names. -/
def Obligations.OnlyPokeAndResetWriteMemory : Prop :=
  ∀ s t : State, step s = .next t → t.mem ≠ s.mem →
    (∃ a v rest, s.script = .poke a v :: rest ∧ s.regs.busy = false ∧ s.port = none ∧
      t.mem = s.mem.write a v ∧ ∀ a', a' ≠ a → t.mem.read a' = s.mem.read a') ∨
    (∃ e es, s.resets = e :: es ∧ e.delay = 0)

/-- R91, R24: while the block is busy the host has no move: the script, the pin's direction and memory stay as they are
through every step but the system's reset. -/
def Obligations.HostIsStalledWhileBusy : Prop :=
  ∀ s t : State, s.regs.busy = true → (∀ e es, s.resets = e :: es → e.delay ≠ 0) → step s = .next t →
    t.script = s.script ∧ t.pinOe = s.pinOe ∧ t.mem = s.mem ∧ t.handlers = s.handlers

/-- R156: a handler is entered only at a boundary with `IE = 1` and `busy = 0`. DESIGN CHOICE (log 8): that it is the first
waiting handler, with its delay run down to 0, and that its moves come before what the host has left, is the model's. -/
def Obligations.HandlersEnterOnlyWhenEnabledAndIdle : Prop :=
  ∀ s t : State, step s = .next t → t.handlers.length ≠ s.handlers.length →
    s.ie = true ∧ s.regs.busy = false ∧
    ∃ h, s.handlers = h :: t.handlers ∧ h.delay = 0 ∧ t.script = h.body ++ s.script

/-- R156: at an idle boundary with `IE = 1` the environment may enter a handler. DESIGN CHOICE (log 8): that the one whose turn
it is enters, its moves before what the host has left, and that entering changes nothing else, `IE` too, is the model's. -/
def Obligations.HandlerEntersAtAnEnabledIdleBoundary : Prop :=
  ∀ (s : State) (h : Handler) (hs : List Handler), s.cfg.WF → s.port = none → NoResetWithin 1 s →
    s.regs.busy = false → s.ie = true → s.handlers = h :: hs → h.delay = 0 →
    step s = .next { s with
      ret := none, resets := resetsAfter 1 s.resets, handlers := hs, script := h.body ++ s.script }

/-- R95, R188: after every `ret`, `IE = 1`, whatever it was before. -/
def Obligations.InterruptsAreEnabledAfterEveryReturn : Prop :=
  ∀ s t : State, step s = .next t → t.ret ≠ none → t.ie = true

/-- R83: the moves of the host, each with its whole effect (a result delivered before is gone, R29). Handlers may be waiting
and an `rst` pending (their delays: log 8, log 9). -/
def Obligations.HostMovesHaveTheirEffect : Prop :=
  ∀ (s : State) (rest : List HostMove), s.cfg.WF → Undisturbed 1 s → s.regs.busy = false →
    let t : State := { s with
      script := rest, ret := none, handlers := handlersAfter s, resets := resetsAfter 1 s.resets }
    (s.script = .output :: rest → step s = .next { t with pinOe := true }) ∧
    (s.script = .input :: rest → step s = .next { t with pinOe := false }) ∧
    (s.script = .sei :: rest → step s = .next { t with ie := true }) ∧
    (s.script = .cli :: rest → step s = .next { t with ie := false }) ∧
    (s.script = .wait 0 :: rest → step s = .next t)

/-- R184: a run that has ended is final: the block is idle with the pin low, and a further step is an idle tick that keeps
`IE`, `PIN_OE` and memory. That the machine idles from there on is the model's choice (log 7). -/
def Obligations.AnEndedRunIsFinal : Prop :=
  ∀ s : State, Inv s → Undisturbed 1 s → RunEnded s →
    s.regs = Regs.zero ∧ s.pin = false ∧
    ∃ t, step s = .next t ∧ RunEnded t ∧ t.handlers = handlersAfter s ∧
      t.resets = resetsAfter 1 s.resets ∧ t.regs = s.regs ∧ t.ie = s.ie ∧ t.pinOe = s.pinOe ∧ t.mem = s.mem ∧
      t.sent = s.sent ∧ t.trace = s.trace ++ [false]

/-- R83, R50: `POKE` at a backed address stores its byte there and nowhere else and keeps the memory's canonical form. DESIGN
CHOICE (log 15): outside the address space it faults, and at an address of the space that no memory backs (R58, log 4) it
faults too, under a name of its own. The delays of handlers and of `rst`: log 8, log 9. -/
def Obligations.PokeStoresOneByte : Prop :=
  ∀ (s : State) (a : Nat) (v : Byte) (rest : List HostMove), Inv s → Undisturbed 1 s → s.regs.busy = false →
    s.script = .poke a v :: rest →
    (backed s.cfg a = true → ∃ t, step s = .next t ∧ t.mem.read a = v ∧ (∀ a', a' ≠ a → t.mem.read a' = s.mem.read a') ∧
      Memory.wf t.mem = true ∧
      t = { s with
        script := rest, ret := none, handlers := handlersAfter s, resets := resetsAfter 1 s.resets, mem := t.mem }) ∧
    (2 ^ s.cfg.wAddr ≤ a → step s = .fault (.noSuchAddress a)) ∧
    (a < 2 ^ s.cfg.wAddr → backed s.cfg a = false → step s = .fault (.unbackedAddress a))

/-- R182, R180: `rst` at any boundary, in mid-slot too, abandons the command: the block is idle with all registers zero, the
pin low, no result; `PIN_OE = 0`; the ghosts start again. The script after it is the event's (log 9). -/
def Obligations.ResetAbandonsTheCommand : Prop :=
  ∀ (s : State) (e : ResetEvent) (es : List ResetEvent), s.cfg.WF → s.resets = e :: es → e.delay = 0 →
    ∃ t, step s = .next t ∧ t.regs = Regs.zero ∧ t.pin = false ∧ t.pinOe = false ∧ t.ret = none ∧ t.port = none ∧
      t.trace = [] ∧ t.lowRun = 0 ∧ t.sent = [] ∧ t.script = e.script ∧ t.cfg = s.cfg ∧ Memory.wf t.mem = true

/-- R38: the state after reset, for what the spec gives a value: the block idle, the pin low and no output, nothing on the
ports, the ghosts empty. -/
def Obligations.ResetStateIsAsTheSpecSays : Prop :=
  State.reset.regs.busy = false ∧ State.reset.regs = Regs.zero ∧ State.reset.pin = false ∧
  State.reset.pinOe = false ∧ State.reset.port = none ∧ State.reset.ret = none ∧
  State.reset.trace = [] ∧ State.reset.lowRun = 0 ∧ State.reset.sent = []
end

