-- ==== Sys2Proof/Laws/State.lean ====
section
/-! SUPPORT. One lemma per field of State per update: what each named update writes, and what it leaves. -/

namespace Sys2Proof.Laws

open Sys2Proof.Machine

/-! ### drive -/

@[simp] theorem drive_cfg (w : Trace) (s : State) : (s.drive w).cfg = s.cfg := rfl
@[simp] theorem drive_regs (w : Trace) (s : State) : (s.drive w).regs = s.regs := rfl
@[simp] theorem drive_ie (w : Trace) (s : State) : (s.drive w).ie = s.ie := rfl
@[simp] theorem drive_pinOe (w : Trace) (s : State) : (s.drive w).pinOe = s.pinOe := rfl
@[simp] theorem drive_mem (w : Trace) (s : State) : (s.drive w).mem = s.mem := rfl
@[simp] theorem drive_port (w : Trace) (s : State) : (s.drive w).port = s.port := rfl
@[simp] theorem drive_ret (w : Trace) (s : State) : (s.drive w).ret = s.ret := rfl
@[simp] theorem drive_script (w : Trace) (s : State) : (s.drive w).script = s.script := rfl
@[simp] theorem drive_handlers (w : Trace) (s : State) : (s.drive w).handlers = s.handlers := rfl
@[simp] theorem drive_resets (w : Trace) (s : State) : (s.drive w).resets = s.resets := rfl
@[simp] theorem drive_fresh (w : Trace) (s : State) : (s.drive w).fresh = s.fresh := rfl
@[simp] theorem drive_trace (w : Trace) (s : State) : (s.drive w).trace = s.trace ++ w := rfl
@[simp] theorem drive_lowRun (w : Trace) (s : State) : (s.drive w).lowRun = lowRunAfter s.lowRun w := rfl
@[simp] theorem drive_sent (w : Trace) (s : State) : (s.drive w).sent = s.sent := rfl
@[simp] theorem drive_reads (w : Trace) (s : State) : (s.drive w).reads = s.reads := rfl

/-! ### mask -/

@[simp] theorem mask_cfg (s : State) : (s.mask).cfg = s.cfg := rfl
@[simp] theorem mask_regs (s : State) : (s.mask).regs = s.regs := rfl
@[simp] theorem mask_ie (s : State) : (s.mask).ie = false := rfl
@[simp] theorem mask_pinOe (s : State) : (s.mask).pinOe = s.pinOe := rfl
@[simp] theorem mask_mem (s : State) : (s.mask).mem = s.mem := rfl
@[simp] theorem mask_port (s : State) : (s.mask).port = s.port := rfl
@[simp] theorem mask_ret (s : State) : (s.mask).ret = s.ret := rfl
@[simp] theorem mask_script (s : State) : (s.mask).script = s.script := rfl
@[simp] theorem mask_handlers (s : State) : (s.mask).handlers = s.handlers := rfl
@[simp] theorem mask_resets (s : State) : (s.mask).resets = s.resets := rfl
@[simp] theorem mask_fresh (s : State) : (s.mask).fresh = s.fresh := rfl
@[simp] theorem mask_trace (s : State) : (s.mask).trace = s.trace := rfl
@[simp] theorem mask_lowRun (s : State) : (s.mask).lowRun = s.lowRun := rfl
@[simp] theorem mask_sent (s : State) : (s.mask).sent = s.sent := rfl
@[simp] theorem mask_reads (s : State) : (s.mask).reads = s.reads := rfl

/-! ### unmask -/

@[simp] theorem unmask_cfg (s : State) : (s.unmask).cfg = s.cfg := rfl
@[simp] theorem unmask_regs (s : State) : (s.unmask).regs = s.regs := rfl
@[simp] theorem unmask_ie (s : State) : (s.unmask).ie = true := rfl
@[simp] theorem unmask_pinOe (s : State) : (s.unmask).pinOe = s.pinOe := rfl
@[simp] theorem unmask_mem (s : State) : (s.unmask).mem = s.mem := rfl
@[simp] theorem unmask_port (s : State) : (s.unmask).port = s.port := rfl
@[simp] theorem unmask_ret (s : State) : (s.unmask).ret = s.ret := rfl
@[simp] theorem unmask_script (s : State) : (s.unmask).script = s.script := rfl
@[simp] theorem unmask_handlers (s : State) : (s.unmask).handlers = s.handlers := rfl
@[simp] theorem unmask_resets (s : State) : (s.unmask).resets = s.resets := rfl
@[simp] theorem unmask_fresh (s : State) : (s.unmask).fresh = s.fresh := rfl
@[simp] theorem unmask_trace (s : State) : (s.unmask).trace = s.trace := rfl
@[simp] theorem unmask_lowRun (s : State) : (s.unmask).lowRun = s.lowRun := rfl
@[simp] theorem unmask_sent (s : State) : (s.unmask).sent = s.sent := rfl
@[simp] theorem unmask_reads (s : State) : (s.unmask).reads = s.reads := rfl

/-! ### deliver -/

@[simp] theorem deliver_cfg (r : ResultCode) (s : State) : (s.deliver r).cfg = s.cfg := rfl
@[simp] theorem deliver_regs (r : ResultCode) (s : State) : (s.deliver r).regs = s.regs := rfl
@[simp] theorem deliver_ie (r : ResultCode) (s : State) : (s.deliver r).ie = s.ie := rfl
@[simp] theorem deliver_pinOe (r : ResultCode) (s : State) : (s.deliver r).pinOe = s.pinOe := rfl
@[simp] theorem deliver_mem (r : ResultCode) (s : State) : (s.deliver r).mem = s.mem := rfl
@[simp] theorem deliver_port (r : ResultCode) (s : State) : (s.deliver r).port = s.port := rfl
@[simp] theorem deliver_ret (r : ResultCode) (s : State) : (s.deliver r).ret = some r := rfl
@[simp] theorem deliver_script (r : ResultCode) (s : State) : (s.deliver r).script = s.script := rfl
@[simp] theorem deliver_handlers (r : ResultCode) (s : State) : (s.deliver r).handlers = s.handlers := rfl
@[simp] theorem deliver_resets (r : ResultCode) (s : State) : (s.deliver r).resets = s.resets := rfl
@[simp] theorem deliver_fresh (r : ResultCode) (s : State) : (s.deliver r).fresh = s.fresh := rfl
@[simp] theorem deliver_trace (r : ResultCode) (s : State) : (s.deliver r).trace = s.trace := rfl
@[simp] theorem deliver_lowRun (r : ResultCode) (s : State) : (s.deliver r).lowRun = s.lowRun := rfl
@[simp] theorem deliver_sent (r : ResultCode) (s : State) : (s.deliver r).sent = s.sent := rfl
@[simp] theorem deliver_reads (r : ResultCode) (s : State) : (s.deliver r).reads = s.reads := rfl

/-! ### raiseInvalidArgument -/

@[simp] theorem raiseInvalidArgument_cfg (s : State) : (s.raiseInvalidArgument).cfg = s.cfg := rfl
@[simp] theorem raiseInvalidArgument_regs (s : State) : (s.raiseInvalidArgument).regs = s.regs := rfl
@[simp] theorem raiseInvalidArgument_ie (s : State) : (s.raiseInvalidArgument).ie = true := rfl
@[simp] theorem raiseInvalidArgument_pinOe (s : State) : (s.raiseInvalidArgument).pinOe = s.pinOe := rfl
@[simp] theorem raiseInvalidArgument_mem (s : State) : (s.raiseInvalidArgument).mem = s.mem := rfl
@[simp] theorem raiseInvalidArgument_port (s : State) : (s.raiseInvalidArgument).port = s.port := rfl
@[simp] theorem raiseInvalidArgument_ret (s : State) : (s.raiseInvalidArgument).ret = some .invalidArgument := rfl
@[simp] theorem raiseInvalidArgument_script (s : State) : (s.raiseInvalidArgument).script = s.script := rfl
@[simp] theorem raiseInvalidArgument_handlers (s : State) : (s.raiseInvalidArgument).handlers = s.handlers := rfl
@[simp] theorem raiseInvalidArgument_resets (s : State) : (s.raiseInvalidArgument).resets = s.resets := rfl
@[simp] theorem raiseInvalidArgument_fresh (s : State) : (s.raiseInvalidArgument).fresh = s.fresh := rfl
@[simp] theorem raiseInvalidArgument_trace (s : State) : (s.raiseInvalidArgument).trace = s.trace := rfl
@[simp] theorem raiseInvalidArgument_lowRun (s : State) : (s.raiseInvalidArgument).lowRun = s.lowRun := rfl
@[simp] theorem raiseInvalidArgument_sent (s : State) : (s.raiseInvalidArgument).sent = s.sent := rfl
@[simp] theorem raiseInvalidArgument_reads (s : State) : (s.raiseInvalidArgument).reads = s.reads := rfl

/-! ### completeAtOnce -/

@[simp] theorem completeAtOnce_cfg (s : State) : (s.completeAtOnce).cfg = s.cfg := rfl
@[simp] theorem completeAtOnce_regs (s : State) : (s.completeAtOnce).regs = s.regs := rfl
@[simp] theorem completeAtOnce_ie (s : State) : (s.completeAtOnce).ie = true := rfl
@[simp] theorem completeAtOnce_pinOe (s : State) : (s.completeAtOnce).pinOe = s.pinOe := rfl
@[simp] theorem completeAtOnce_mem (s : State) : (s.completeAtOnce).mem = s.mem := rfl
@[simp] theorem completeAtOnce_port (s : State) : (s.completeAtOnce).port = s.port := rfl
@[simp] theorem completeAtOnce_ret (s : State) : (s.completeAtOnce).ret = some .ok := rfl
@[simp] theorem completeAtOnce_script (s : State) : (s.completeAtOnce).script = s.script := rfl
@[simp] theorem completeAtOnce_handlers (s : State) : (s.completeAtOnce).handlers = s.handlers := rfl
@[simp] theorem completeAtOnce_resets (s : State) : (s.completeAtOnce).resets = s.resets := rfl
@[simp] theorem completeAtOnce_fresh (s : State) : (s.completeAtOnce).fresh = s.fresh := rfl
@[simp] theorem completeAtOnce_trace (s : State) : (s.completeAtOnce).trace = s.trace := rfl
@[simp] theorem completeAtOnce_lowRun (s : State) : (s.completeAtOnce).lowRun = s.lowRun := rfl
@[simp] theorem completeAtOnce_sent (s : State) : (s.completeAtOnce).sent = s.sent := rfl
@[simp] theorem completeAtOnce_reads (s : State) : (s.completeAtOnce).reads = s.reads := rfl

/-! ### complete -/

@[simp] theorem complete_cfg (s : State) : (s.complete).cfg = s.cfg := rfl
@[simp] theorem complete_regs (s : State) : (s.complete).regs = Regs.zero := rfl
@[simp] theorem complete_ie (s : State) : (s.complete).ie = true := rfl
@[simp] theorem complete_pinOe (s : State) : (s.complete).pinOe = s.pinOe := rfl
@[simp] theorem complete_mem (s : State) : (s.complete).mem = s.mem := rfl
@[simp] theorem complete_port (s : State) : (s.complete).port = s.port := rfl
@[simp] theorem complete_ret (s : State) : (s.complete).ret = some .ok := rfl
@[simp] theorem complete_script (s : State) : (s.complete).script = s.script := rfl
@[simp] theorem complete_handlers (s : State) : (s.complete).handlers = s.handlers := rfl
@[simp] theorem complete_resets (s : State) : (s.complete).resets = s.resets := rfl
@[simp] theorem complete_fresh (s : State) : (s.complete).fresh = s.fresh := rfl
@[simp] theorem complete_trace (s : State) : (s.complete).trace = s.trace := rfl
@[simp] theorem complete_lowRun (s : State) : (s.complete).lowRun = s.lowRun := rfl
@[simp] theorem complete_sent (s : State) : (s.complete).sent = s.sent := rfl
@[simp] theorem complete_reads (s : State) : (s.complete).reads = s.reads := rfl

/-! ### systemReset -/

@[simp] theorem systemReset_cfg (e : ResetEvent) (s : State) : (s.systemReset e).cfg = s.cfg := rfl
@[simp] theorem systemReset_regs (e : ResetEvent) (s : State) : (s.systemReset e).regs = Regs.zero := rfl
@[simp] theorem systemReset_ie (e : ResetEvent) (s : State) : (s.systemReset e).ie = Config.ieAtReset s.fresh := rfl
@[simp] theorem systemReset_pinOe (e : ResetEvent) (s : State) : (s.systemReset e).pinOe = false := rfl
@[simp] theorem systemReset_mem (e : ResetEvent) (s : State) : (s.systemReset e).mem = Memory.ofCells s.cfg (Config.memAtReset s.fresh) := rfl
@[simp] theorem systemReset_port (e : ResetEvent) (s : State) : (s.systemReset e).port = none := rfl
@[simp] theorem systemReset_ret (e : ResetEvent) (s : State) : (s.systemReset e).ret = none := rfl
@[simp] theorem systemReset_script (e : ResetEvent) (s : State) : (s.systemReset e).script = e.script := rfl
@[simp] theorem systemReset_handlers (e : ResetEvent) (s : State) : (s.systemReset e).handlers = s.handlers := rfl
@[simp] theorem systemReset_resets (e : ResetEvent) (s : State) : (s.systemReset e).resets = s.resets := rfl
@[simp] theorem systemReset_fresh (e : ResetEvent) (s : State) : (s.systemReset e).fresh = s.fresh + 1 := rfl
@[simp] theorem systemReset_trace (e : ResetEvent) (s : State) : (s.systemReset e).trace = [] := rfl
@[simp] theorem systemReset_lowRun (e : ResetEvent) (s : State) : (s.systemReset e).lowRun = 0 := rfl
@[simp] theorem systemReset_sent (e : ResetEvent) (s : State) : (s.systemReset e).sent = [] := rfl
@[simp] theorem systemReset_reads (e : ResetEvent) (s : State) : (s.systemReset e).reads = [] := rfl

/-! ### resetWith -/

@[simp] theorem resetWith_cfg (c : Cfg) : (State.resetWith c).cfg = c := rfl
@[simp] theorem resetWith_regs (c : Cfg) : (State.resetWith c).regs = Regs.zero := rfl
@[simp] theorem resetWith_ie (c : Cfg) : (State.resetWith c).ie = false := rfl
@[simp] theorem resetWith_pinOe (c : Cfg) : (State.resetWith c).pinOe = false := rfl
@[simp] theorem resetWith_mem (c : Cfg) : (State.resetWith c).mem = [] := rfl
@[simp] theorem resetWith_port (c : Cfg) : (State.resetWith c).port = none := rfl
@[simp] theorem resetWith_ret (c : Cfg) : (State.resetWith c).ret = none := rfl
@[simp] theorem resetWith_script (c : Cfg) : (State.resetWith c).script = [] := rfl
@[simp] theorem resetWith_handlers (c : Cfg) : (State.resetWith c).handlers = [] := rfl
@[simp] theorem resetWith_resets (c : Cfg) : (State.resetWith c).resets = [] := rfl
@[simp] theorem resetWith_fresh (c : Cfg) : (State.resetWith c).fresh = 0 := rfl
@[simp] theorem resetWith_trace (c : Cfg) : (State.resetWith c).trace = [] := rfl
@[simp] theorem resetWith_lowRun (c : Cfg) : (State.resetWith c).lowRun = 0 := rfl
@[simp] theorem resetWith_sent (c : Cfg) : (State.resetWith c).sent = [] := rfl
@[simp] theorem resetWith_reads (c : Cfg) : (State.resetWith c).reads = [] := rfl

/-! ### the zero registers -/

@[simp] theorem zero_busy : Regs.zero.busy = false := rfl
@[simp] theorem zero_bas : Regs.zero.bas = 0 := rfl
@[simp] theorem zero_cnt : Regs.zero.cnt = 0 := rfl
@[simp] theorem zero_led : Regs.zero.led = 0 := rfl
@[simp] theorem zero_ch : Regs.zero.ch = 0 := rfl
@[simp] theorem zero_k : Regs.zero.k = 0 := rfl
@[simp] theorem zero_ph : Regs.zero.ph = 0 := rfl
@[simp] theorem zero_sh : Regs.zero.sh = 0 := rfl

end Sys2Proof.Laws
end

