-- ==== Sys2Proof/Laws/Ops.lean ====
section
/-! SUPPORT. One lemma per shared operation: sequencing, the byte read, the tests of a command. -/

namespace Sys2Proof.Laws

open Sys2Proof.Machine

@[simp] theorem andThen_next (s : State) (f : State → Out) : andThen (.next s) f = f s := rfl
@[simp] theorem andThen_fault (r : Fault) (f : State → Out) : andThen (.fault r) f = .fault r := rfl
@[simp] theorem andThen_refused (r : Refusal) (f : State → Out) : andThen (.refused r) f = .refused r := rfl

/-- A sequence answers a next state through a next state of its first part. -/
theorem andThen_eq_next {o : Out} {f : State → Out} {t : State} (h : andThen o f = .next t) :
    ∃ s, o = .next s ∧ f s = .next t := by
  cases o with
  | next s => exact ⟨s, rfl, h⟩
  | fault r => exact absurd h (by simp)
  | refused r => exact absurd h (by simp)

theorem andThen_assoc (o : Out) (f g : State → Out) :
    andThen (andThen o f) g = andThen o (fun s => andThen (f s) g) := by
  cases o <;> rfl

theorem stepN_add (m n : Nat) (s : State) : stepN (m + n) s = andThen (stepN m s) (stepN n) := by
  induction m generalizing s with
  | zero => simp [stepN]
  | succ m ih =>
    rw [Nat.succ_add]
    show andThen (step s) (stepN (m + n)) = andThen (andThen (step s) (stepN m)) (stepN n)
    rw [andThen_assoc]
    congr 1
    exact funext fun s => ih s

/-- `stepN` is the host's run of the machine. -/
theorem stepN_eq_run (n : Nat) (s : State) : stepN n s = Host.Core.run Sys2Proof.core n s := by
  induction n generalizing s with
  | zero => rfl
  | succ n ih =>
    have hc : Sys2Proof.core.step s = step s := rfl
    cases h : step s with
    | next t =>
      rw [h] at hc
      simp only [stepN, Host.Core.run, h, hc, andThen_next]
      exact ih t
    | fault r =>
      rw [h] at hc
      simp only [stepN, Host.Core.run, h, hc, andThen_fault]
      rfl
    | refused r =>
      rw [h] at hc
      simp only [stepN, Host.Core.run, h, hc, andThen_refused]
      rfl

theorem backed_lt {c : Cfg} {a : Nat} (h : backed c a = true) : a < 2 ^ c.wAddr := by
  simp only [backed, Bool.and_eq_true, decide_eq_true_eq] at h
  exact h.1

theorem ifBacked_of_backed {a : Nat} {s : State} (h : backed s.cfg a = true) (o : Out) : ifBacked a s o = o := by
  simp [ifBacked, h, Nat.not_le.2 (backed_lt h)]

theorem ifBacked_eq_next {a : Nat} {s t : State} {o : Out} (h : ifBacked a s o = .next t) :
    backed s.cfg a = true ∧ o = .next t := by
  unfold ifBacked at h
  split at h
  · cases h
  · split at h
    · exact ⟨by assumption, h⟩
    · cases h

theorem loadByte_of_backed {a : Nat} {s : State} (h : backed s.cfg a = true) (f : Byte → State → Out) :
    loadByte a s f = f (s.mem.read a) { s with reads := s.reads ++ [a] } :=
  ifBacked_of_backed h _

theorem loadByte_eq_next {a : Nat} {s t : State} {f : Byte → State → Out} (h : loadByte a s f = .next t) :
    backed s.cfg a = true ∧ f (s.mem.read a) { s with reads := s.reads ++ [a] } = .next t :=
  ifBacked_eq_next h

theorem storeByte_of_backed {a : Nat} {s : State} (h : backed s.cfg a = true) (v : Byte) :
    storeByte a v s = .next { s with mem := s.mem.write a v } :=
  ifBacked_of_backed h _

/-- The ranges of `bufferReadable` say what R92 (3) says, byte by byte. -/
theorem bufferReadable_iff {c : Cfg} {base len : Nat} (hf : bufferFits c base len = true) :
    bufferReadable c base len = true ↔ ∀ a, base ≤ a → a < base + 3 * len → backed c a = true := by
  simp only [bufferFits, decide_eq_true_eq] at hf
  simp only [bufferReadable, backed, rangesMeet, inRange, Bool.not_eq_true', Bool.and_eq_true, decide_eq_true_eq,
    List.any_eq_false]
  constructor
  · intro h a h1 h2
    refine ⟨by omega, fun x hx hr => h x hx ?_⟩
    omega
  · intro h x hx hr
    by_cases hb : base ≤ x.1
    · exact (h x.1 hb (by omega)).2 x hx (by omega)
    · exact (h base le_rfl (by omega)).2 x hx (by omega)

/-- An admitted command takes one of its three paths (R93, R96, R130). -/
theorem command_of_admitted {s : State} {base len count : Nat} (h : Admitted s base len count) (f : State → Out) :
    command base len count f s =
      if len < count then .next s.raiseInvalidArgument
      else if count = 0 then .next s.completeAtOnce
      else f s := by
  obtain ⟨h1, h2, h3, h4, h5⟩ := h
  unfold command
  rw [if_neg (by simp [h1]), if_neg (not_not.2 h2), if_neg (by simp [h3]), if_neg (by simp [h4]), if_neg (by simp [h5])]

/-- What a command that answers a next state has passed, and which path it took. -/
theorem command_eq_next {s t : State} {base len count : Nat} {f : State → Out}
    (h : command base len count f s = .next t) :
    Admitted s base len count ∧
      ((len < count ∧ t = s.raiseInvalidArgument) ∨
       (count ≤ len ∧ count = 0 ∧ t = s.completeAtOnce) ∨
       (count ≤ len ∧ 0 < count ∧ f s = .next t)) := by
  unfold command at h
  split at h
  · cases h
  split at h
  · cases h
  split at h
  · cases h
  split at h
  · cases h
  split at h
  · cases h
  rename_i h1 h2 h3 h4 h5
  refine ⟨⟨by simpa using h1, not_not.1 h2, by simpa using h3, by simpa using h4, by simpa using h5⟩, ?_⟩
  split at h
  · cases h; exact .inl ⟨by assumption, rfl⟩
  split at h
  · cases h; exact .inr (.inl ⟨by omega, by assumption, rfl⟩)
  · exact .inr (.inr ⟨by omega, by omega, h⟩)

end Sys2Proof.Laws
end

