-- ==== Sys2Proof/Laws/Wire.lean ====
section
/-! SUPPORT. The symbols as lists of ticks, the run of low ticks, and the frame's bits as the bits of its Colors. -/

namespace Sys2Proof.Laws

open Sys2Proof.Machine

theorem highTicks_pos {c : Cfg} (h : c.WF) (b : Bit) : 0 < highTicks c b := by
  have := h.2.1
  cases b <;> simp [highTicks] <;> omega

theorem highTicks_lt {c : Cfg} (h : c.WF) (b : Bit) : highTicks c b < c.nT := by
  have := h.2.1
  cases b <;> simp [highTicks] <;> omega

theorem nT_pos {c : Cfg} (h : c.WF) : 0 < c.nT := by
  have := h.2.1
  omega

theorem sym_length {c : Cfg} (h : c.WF) (b : Bit) : (sym c b).length = c.nT := by
  have := highTicks_lt h b
  simp [sym]
  omega

/-- A slot is high in its first `N_H(b)` ticks and low after (R110). -/
theorem sym_getElem? {c : Cfg} (h : c.WF) (b : Bit) {p : Nat} (hp : p < c.nT) :
    (sym c b)[p]? = some (decide (p < highTicks c b)) := by
  have := highTicks_lt h b
  rw [sym, List.getElem?_append, List.length_replicate]
  split
  · rename_i hh
    rw [List.getElem?_replicate, if_pos hh]
    simp [hh]
  · rename_i hh
    rw [List.getElem?_replicate, if_pos (by omega)]
    simp [hh]

theorem sym_drop {c : Cfg} (h : c.WF) (b : Bit) {p : Nat} (hp : p < c.nT) :
    (sym c b).drop p = decide (p < highTicks c b) :: (sym c b).drop (p + 1) := by
  have hl : p < (sym c b).length := by rw [sym_length h]; exact hp
  rw [List.drop_eq_getElem_cons hl]
  have := sym_getElem? h b hp
  rw [List.getElem?_eq_getElem hl] at this
  rw [Option.some.inj this]

theorem sym_take_succ {c : Cfg} (h : c.WF) (b : Bit) {p : Nat} (hp : p < c.nT) :
    (sym c b).take (p + 1) = (sym c b).take p ++ [decide (p < highTicks c b)] := by
  rw [List.take_add_one, sym_getElem? h b hp]
  rfl

@[simp] theorem lowRunAfter_nil (n : Nat) : lowRunAfter n [] = n := rfl

@[simp] theorem lowRunAfter_cons (n : Nat) (b : Bit) (w : Trace) :
    lowRunAfter n (b :: w) = lowRunAfter (if b then 0 else n + 1) w := rfl

theorem lowRunAfter_append (n : Nat) (w w' : Trace) :
    lowRunAfter n (w ++ w') = lowRunAfter (lowRunAfter n w) w' := List.foldl_append

theorem lowRunAfter_replicate_false (n m : Nat) : lowRunAfter n (List.replicate m false) = n + m := by
  induction m generalizing n with
  | zero => simp
  | succ m ih => simp [List.replicate_succ, ih]; omega

theorem lowRunAfter_replicate_true (n : Nat) {m : Nat} (hm : 0 < m) :
    lowRunAfter n (List.replicate m true) = 0 := by
  induction m generalizing n with
  | zero => omega
  | succ m ih =>
    rcases Nat.eq_zero_or_pos m with rfl | h
    · simp
    · simpa [List.replicate_succ] using ih 0 h

/-- After a slot the low run is its tail, whatever came before (R118). -/
theorem lowRunAfter_sym {c : Cfg} (h : c.WF) (n : Nat) (b : Bit) :
    lowRunAfter n (sym c b) = c.nT - highTicks c b := by
  rw [sym, lowRunAfter_append, lowRunAfter_replicate_true _ (highTicks_pos h b), lowRunAfter_replicate_false]
  omega

theorem drive_drive (w w' : Trace) (s : State) : (s.drive w).drive w' = s.drive (w ++ w') := by
  simp [State.drive, lowRunAfter_append]

@[simp] theorem drive_nil (s : State) : s.drive [] = s := by
  simp [State.drive]

/-- The bits of a Color in the order they are sent (R72). -/
def colorBits (c : Color) : List Bit := byteBits c.red ++ byteBits c.green ++ byteBits c.blue

@[simp] theorem byteBits_length (v : Byte) : (byteBits v).length = 8 := by simp [byteBits]

@[simp] theorem colorBits_length (c : Color) : (colorBits c).length = 24 := by simp [colorBits]

theorem emitBits_append (bs bs' : List Bit) (s : State) :
    emitBits (bs ++ bs') s = andThen (emitBits bs s) (emitBits bs') := by
  induction bs generalizing s with
  | nil => rfl
  | cons b bs ih =>
    simp only [List.cons_append, emitBits, andThen_assoc]
    congr 1
    exact funext fun t => ih t

theorem emitByte_eq (v : Byte) : emitByte v = emitBits (byteBits v) := rfl

theorem emitColor_eq (c : Color) (s : State) : emitColor c s = emitBits (colorBits c) s := by
  simp only [emitColor, emitByte_eq, colorBits, emitBits_append, andThen_assoc]

theorem emitColors_eq (cs : List Color) (s : State) : emitColors cs s = emitBits (cs.flatMap colorBits) s := by
  induction cs generalizing s with
  | nil => rfl
  | cons c cs ih =>
    simp only [emitColors, List.flatMap_cons, emitBits_append, emitColor_eq]
    congr 1
    exact funext fun t => ih t

@[simp] theorem frameBits_length (strip : Nat → Color) (count : Nat) : (frameBits strip count).length = 24 * count := by
  simp [frameBits]

/-- The 24 bits of Color `i` are the frame's bits from `24 i` on (R72, R74). -/
theorem colorBits_eq (strip : Nat → Color) (i : Nat) :
    colorBits (strip i) = (List.range 24).map (fun j => frameBit strip (24 * i + j)) := by
  have hd : ∀ j, j < 24 → (24 * i + j) / 24 = i := fun j hj => by omega
  have hm : ∀ j, j < 24 → (24 * i + j) % 24 = j := fun j hj => by omega
  have h8 : ∀ j, (24 * i + j) % 8 = j % 8 := fun j => by omega
  have hfb : ∀ j, j < 24 → frameBit strip (24 * i + j) = (chan (strip i) (j / 8)).getLsbD (7 - j % 8) := by
    intro j hj
    simp [frameBit, hd j hj, hm j hj, h8 j]
  rw [List.map_congr_left (g := fun j => (chan (strip i) (j / 8)).getLsbD (7 - j % 8))
    (fun j hj => hfb j (List.mem_range.1 hj))]
  simp [colorBits, byteBits, List.range_succ, chan]

/-- The bits of the Colors in buffer order are the frame's bit list (R74, R90). -/
theorem stripColors_bits (m : Memory) (base count : Nat) :
    (stripColors m base count).flatMap colorBits = frameBits (stripColor m base) count := by
  induction count with
  | zero => rfl
  | succ n ih =>
    rw [stripColors, List.range_succ, List.map_append, List.flatMap_append]
    change (stripColors m base n).flatMap colorBits ++ _ = _
    rw [ih]
    simp only [List.map_cons, List.map_nil, List.flatMap_cons, List.flatMap_nil, List.append_nil]
    rw [colorBits_eq (stripColor m base) n]
    simp only [frameBits]
    rw [show 24 * (n + 1) = 24 * n + 24 by ring, List.range_add, List.map_append, List.map_map]
    rfl

theorem wave_length {c : Cfg} (h : c.WF) (strip : Nat → Color) (count : Nat) :
    (wave c strip count).length = 24 * count * c.nT := by
  simp [wave, List.length_flatMap, sym_length h]

/-- After a non-empty list of slots the low run is the tail of the last (R118). -/
theorem lowRunAfter_slots {c : Cfg} (h : c.WF) (n : Nat) (bs : List Bit) (b : Bit) :
    lowRunAfter n ((bs ++ [b]).flatMap (sym c)) = c.nT - highTicks c b := by
  simp [lowRunAfter_append, lowRunAfter_sym h]

end Sys2Proof.Laws
end

