-- ==== Sys2Proof/Laws/Encoding.lean ====
section
/-! SUPPORT. Bits read as a number, and the fields of a command word. -/

namespace Sys2Proof.Laws

/-- Appending bits shifts what came before. -/
theorem listValue_append (a b : List Bit) : listValue (a ++ b) = listValue a * 2 ^ b.length + listValue b := by
  unfold listValue
  suffices h : ∀ n, b.foldl (fun n b => 2 * n + b.toNat) n =
      n * 2 ^ b.length + b.foldl (fun n b => 2 * n + b.toNat) 0 by
    rw [List.foldl_append]; exact h _
  induction b with
  | nil => simp
  | cons x b ih =>
    intro n
    simp only [List.foldl_cons, List.length_cons]
    rw [ih, ih (2 * 0 + x.toNat)]
    ring

/-- A list of `n` bits reads as a number below `2^n`. -/
theorem listValue_lt (a : List Bit) : listValue a < 2 ^ a.length := by
  induction a using List.reverseRecOn with
  | nil => simp [listValue]
  | append_singleton a x ih =>
    rw [listValue_append]
    simp only [List.length_append, List.length_cons, List.length_nil, listValue, List.foldl_cons, List.foldl_nil]
    simp only [listValue] at ih
    cases x <;> simp [pow_succ] <;> omega

/-- Lists of one length that read as one number are equal. -/
theorem listValue_inj : ∀ a b : List Bit, a.length = b.length → listValue a = listValue b → a = b := by
  intro a
  induction a using List.reverseRecOn with
  | nil => intro b hl _; simpa using hl.symm
  | append_singleton a x ih =>
    intro b
    induction b using List.reverseRecOn with
    | nil => intro hl; simp at hl
    | append_singleton b y _ =>
      intro hl hv
      simp only [listValue_append] at hv
      simp at hl
      have : listValue [x] = x.toNat := by simp [listValue]
      have h2 : listValue [y] = y.toNat := by simp [listValue]
      rw [this, h2] at hv
      cases x <;> cases y <;> simp at hv ⊢
      all_goals first | exact ih b hl hv | omega

/-- The two symbols differ: at tick `N_0H` one is high and the other low (R75, R99). -/
theorem sym_ne {c : Cfg} (h : c.WF) : sym c true ≠ sym c false := by
  intro he
  have hp : c.n0H < c.nT := by have := h.2.1; omega
  have h1 := sym_getElem? h true hp
  have h2 := sym_getElem? h false hp
  rw [he, h2] at h1
  have := h.2.1
  simp [highTicks] at h1
  omega

theorem symValue_ne {c : Cfg} (h : c.WF) : symValue c true ≠ symValue c false := by
  intro he
  exact sym_ne h (listValue_inj _ _ (by rw [sym_length h, sym_length h]) he)

theorem symValue_lt {c : Cfg} (h : c.WF) (b : Bit) : symValue c b < 2 ^ c.nT := by
  have := listValue_lt (sym c b)
  rwa [sym_length h] at this

/-- Two fields of one width above a third fill a word of the three widths and no more (R70). -/
theorem fields_lt {A C x y z : Nat} (hx : x < C) (hy : y < C) (hz : z < A) :
    x * (A * C) + y * A + z < A * (C * C) := by
  have h1 : y * A + z < A * C := by nlinarith
  nlinarith [Nat.mul_le_mul_right (A * C) (show x + 1 ≤ C from hx)]

theorem pow_cmdWidth (c : Cfg) : 2 ^ cmdWidth c = 2 ^ c.wAddr * (2 ^ c.wCount * 2 ^ c.wCount) := by
  unfold cmdWidth
  rw [pow_add]
  ring

end Sys2Proof.Laws
end

