-- ==== Sys2Proof/Laws/Position.lean ====
section
/-! SUPPORT. The working registers as a function of the flat bit index (R23, R137), and the sequencer's moves in those terms:
one lemma for the end of a slot, one for a run of slots. -/

namespace Sys2Proof.Laws

open Sys2Proof.Machine

/-- The registers during bit `n` of a command on the buffer at `base` (R137). -/
def regsAt (m : Memory) (base count n ph : Nat) : Regs :=
  { busy := true, bas := base, cnt := count, led := n / 24, ch := ⟨n % 24 / 8, by omega⟩,
    k := ⟨n % 8, by omega⟩, ph := ph, sh := m.read (base + n / 8) }

@[simp] theorem regsAt_busy (m : Memory) (base count n ph : Nat) : (regsAt m base count n ph).busy = true := rfl
@[simp] theorem regsAt_bas (m : Memory) (base count n ph : Nat) : (regsAt m base count n ph).bas = base := rfl
@[simp] theorem regsAt_cnt (m : Memory) (base count n ph : Nat) : (regsAt m base count n ph).cnt = count := rfl
@[simp] theorem regsAt_ph (m : Memory) (base count n ph : Nat) : (regsAt m base count n ph).ph = ph := rfl
@[simp] theorem regsAt_led (m : Memory) (base count n ph : Nat) : (regsAt m base count n ph).led = n / 24 := rfl
@[simp] theorem regsAt_sh (m : Memory) (base count n ph : Nat) :
    (regsAt m base count n ph).sh = m.read (base + n / 8) := rfl

theorem regsAt_bitIndex (m : Memory) (base count n ph : Nat) : (regsAt m base count n ph).bitIndex = n := by
  simp only [Regs.bitIndex, regsAt]
  omega

theorem chanAddr_eq (base n : Nat) : chanAddr base (n / 24) (n % 24 / 8) = base + n / 8 := by
  simp only [chanAddr]
  omega

/-- The bit being sent at index `n` is the frame's bit `n` (R74, R137). -/
theorem regsAt_curBit (m : Memory) (base count n ph : Nat) :
    (regsAt m base count n ph).curBit = frameBit (stripColor m base) n := by
  have hc : chan (stripColor m base (n / 24)) (n % 24 / 8) = m.read (base + n / 8) := by
    rw [← chanAddr_eq]
    have : n % 24 / 8 = 0 ∨ n % 24 / 8 = 1 ∨ n % 24 / 8 = 2 := by omega
    rcases this with h | h | h <;> simp [h, chan, stripColor]
  simp [Regs.curBit, frameBit, hc, regsAt]

/-- Registers that hold the byte of their channel are those of their bit index. -/
theorem eq_regsAt {m : Memory} {r : Regs} (hb : r.busy = true)
    (hs : r.sh = m.read (chanAddr r.bas r.led r.ch.val)) : r = regsAt m r.bas r.cnt r.bitIndex r.ph := by
  obtain ⟨busy, bas, cnt, led, ch, k, ph, sh⟩ := r
  have h1 := ch.isLt
  have h2 := k.isLt
  have e1 : (24 * led + 8 * ch.val + k.val) / 24 = led := by omega
  have e2 : (24 * led + 8 * ch.val + k.val) % 24 / 8 = ch.val := by omega
  have e3 : (24 * led + 8 * ch.val + k.val) % 8 = k.val := by omega
  have e4 : bas + (24 * led + 8 * ch.val + k.val) / 8 = chanAddr bas led ch.val := by
    simp only [chanAddr]; omega
  simp only at hb hs
  simp only [regsAt, Regs.bitIndex, Regs.mk.injEq, true_and]
  refine ⟨hb, e1.symm, Fin.ext e2.symm, Fin.ext e3.symm, ?_⟩
  rw [hs, e4]

/-- The byte read as the position comes to bit `n`, if one is (R61). -/
def readOnReaching (base n : Nat) : List Nat := if n % 8 = 0 then [base + n / 8] else []

/-- The end of the slot of bit `n` (R133): on to bit `n + 1`, or completion after the last. -/
theorem slotEnd_at {s : State} {base count n ph : Nat} (hr : s.regs = regsAt s.mem base count n ph)
    (hn : n < 24 * count) (hb : ∀ a, base ≤ a → a < base + 3 * count → backed s.cfg a = true) (b : Bit) :
    slotEnd b s =
      if n + 1 < 24 * count then
        .next { s with
          sent := s.sent ++ [b], regs := regsAt s.mem base count (n + 1) 0,
          reads := s.reads ++ readOnReaching base (n + 1) }
      else .next { s with sent := s.sent ++ [b] }.complete := by
  unfold slotEnd
  simp only [hr]
  by_cases hk : n % 8 < 7
  · rw [if_pos (show (regsAt s.mem base count n ph).k.val < 7 from hk), if_pos (by omega)]
    have e1 : (n + 1) / 24 = n / 24 := by omega
    have e2 : (n + 1) % 24 / 8 = n % 24 / 8 := by omega
    have e3 : (n + 1) / 8 = n / 8 := by omega
    have e4 : (n + 1) % 8 = n % 8 + 1 := by omega
    have ek : (⟨n % 8, by omega⟩ : Fin 8) + 1 = ⟨n % 8 + 1, by omega⟩ := by
      apply Fin.ext; simp [Fin.val_add]; omega
    simp [regsAt, readOnReaching, e1, e2, e3, e4, ek]
  · rw [if_neg (show ¬ (regsAt s.mem base count n ph).k.val < 7 from hk)]
    by_cases hc : n % 24 / 8 < 2
    · rw [if_pos (show (regsAt s.mem base count n ph).ch.val < 2 from hc), if_pos (by omega)]
      have e1 : (n + 1) / 24 = n / 24 := by omega
      have e2 : (n + 1) % 24 / 8 = n % 24 / 8 + 1 := by omega
      have e3 : (n + 1) / 8 = n / 8 + 1 := by omega
      have e4 : (n + 1) % 8 = 0 := by omega
      have ea : chanAddr base (n / 24) (n % 24 / 8 + 1) = base + (n / 8 + 1) := by
        simp only [chanAddr]; omega
      have ec : (⟨n % 24 / 8, by omega⟩ : Fin 3) + 1 = ⟨n % 24 / 8 + 1, by omega⟩ := by
        apply Fin.ext; simp [Fin.val_add]; omega
      refine (loadByte_of_backed ?_ _).trans ?_
      · exact hb _ (by simp only [regsAt, chanAddr]; omega) (by simp only [regsAt, chanAddr]; omega)
      simp [regsAt, readOnReaching, e1, e2, e3, e4, ea, ec]
    · rw [if_neg (show ¬ (regsAt s.mem base count n ph).ch.val < 2 from hc)]
      by_cases hl : n / 24 + 1 < count
      · rw [if_pos (show (regsAt s.mem base count n ph).led + 1 < (regsAt s.mem base count n ph).cnt from hl),
          if_pos (by omega)]
        have e1 : (n + 1) / 24 = n / 24 + 1 := by omega
        have e2 : (n + 1) % 24 / 8 = 0 := by omega
        have e3 : (n + 1) / 8 = 3 * (n / 24 + 1) := by omega
        have e4 : (n + 1) % 8 = 0 := by omega
        have ea : chanAddr base (n / 24 + 1) 0 = base + 3 * (n / 24 + 1) := by
          simp only [chanAddr]; omega
        refine (loadByte_of_backed ?_ _).trans ?_
        · exact hb _ (by simp only [regsAt, chanAddr]; omega) (by simp only [regsAt, chanAddr]; omega)
        simp [regsAt, readOnReaching, e1, e2, e3, e4, ea]
      · rw [if_neg (show ¬ (regsAt s.mem base count n ph).led + 1 < (regsAt s.mem base count n ph).cnt from hl),
          if_neg (by omega)]

/-- The bytes read as the position goes from bit `n` to bit `n + len` of a frame of `24 count` bits (R56, R61). -/
def readsBetween (base count n len : Nat) : List Nat :=
  (List.range (min (n + len) (24 * count - 1) / 8 - n / 8)).map (fun j => base + n / 8 + 1 + j)

theorem readsBetween_zero (base count n : Nat) : readsBetween base count n 0 = [] := by
  have : min (n + 0) (24 * count - 1) / 8 - n / 8 = 0 := by omega
  rw [readsBetween, this]
  rfl

theorem readsBetween_succ {base count n len : Nat} (hn : n + 1 < 24 * count) :
    readsBetween base count n (len + 1) = readOnReaching base (n + 1) ++ readsBetween base count (n + 1) len := by
  unfold readsBetween readOnReaching
  by_cases h : (n + 1) % 8 = 0
  · have e : (n + 1) / 8 = n / 8 + 1 := by omega
    have e2 : min (n + (len + 1)) (24 * count - 1) / 8 - n / 8 =
        min (n + 1 + len) (24 * count - 1) / 8 - (n / 8 + 1) + 1 := by omega
    rw [if_pos h, e, e2, List.range_succ_eq_map]
    simp only [List.map_cons, List.map_map, List.singleton_append]
    congr 1
    apply List.map_congr_left
    intro j _
    simp only [Function.comp]
    omega
  · have e : (n + 1) / 8 = n / 8 := by omega
    have e2 : n + (len + 1) = n + 1 + len := by omega
    rw [if_neg h, e, e2, List.nil_append]

/-- The slots of `bs` from bit `n` on, at most to the end of the frame. -/
theorem emitBits_at {s : State} {base count n : Nat} (bs : List Bit)
    (hr : s.regs = regsAt s.mem base count n 0) (hn : n < 24 * count) (hlen : n + bs.length ≤ 24 * count)
    (hb : ∀ a, base ≤ a → a < base + 3 * count → backed s.cfg a = true) :
    emitBits bs s =
      let t := { s.drive (bs.flatMap (sym s.cfg)) with
        sent := s.sent ++ bs, reads := s.reads ++ readsBetween base count n bs.length }
      if n + bs.length < 24 * count then .next { t with regs := regsAt s.mem base count (n + bs.length) 0 }
      else .next t.complete := by
  induction bs generalizing s n with
  | nil =>
    simp only [emitBits, List.flatMap_nil, drive_nil, List.append_nil, List.length_nil, Nat.add_zero, if_pos hn,
      readsBetween_zero]
    rw [← hr]
  | cons b bs ih =>
    simp only [List.length_cons] at hlen ⊢
    simp only [emitBits, emitBit]
    rw [slotEnd_at (s := s.drive (sym s.cfg b)) (n := n) (ph := 0) hr hn hb b]
    by_cases h1 : n + 1 < 24 * count
    · rw [if_pos h1, andThen_next]
      refine (ih (n := n + 1) ?_ h1 (by omega) ?_).trans ?_
      · rfl
      · exact hb
      simp only [drive_cfg, drive_mem, drive_sent, drive_reads, List.flatMap_cons, readsBetween_succ h1,
        show n + (bs.length + 1) = n + 1 + bs.length by omega]
      simp [State.drive, lowRunAfter_append, State.complete, State.unmask, State.deliver]
    · have hbs : bs = [] := List.length_eq_zero_iff.1 (by omega)
      subst hbs
      rw [if_neg h1, andThen_next]
      have e : readsBetween base count n 1 = [] := by
        have : min (n + 1) (24 * count - 1) / 8 - n / 8 = 0 := by omega
        simp [readsBetween, this]
      simp [emitBits, h1, e, State.drive]

end Sys2Proof.Laws
end

