-- ==== Sys2Proof/Laws/Step.lean ====
section
/-! SUPPORT. What one step does, case by case, and the slots of a frame tick by tick. -/

namespace Sys2Proof.Laws

open Sys2Proof.Machine

@[simp] theorem resetsAfter_zero (rs : List ResetEvent) : resetsAfter 0 rs = rs := by
  cases rs <;> rfl

@[simp] theorem resetsAfter_resetsAfter (m n : Nat) (rs : List ResetEvent) :
    resetsAfter n (resetsAfter m rs) = resetsAfter (m + n) rs := by
  cases rs <;> simp [resetsAfter, Nat.sub_sub]

theorem noResetWithin_mono {m n : Nat} {s : State} (h : NoResetWithin n s) (hm : m ≤ n) : NoResetWithin m s :=
  fun e he => hm.trans (h e he)

/-- After `m` boundaries of the `m + n` at which no `rst` is due, none is due at the next `n`. -/
theorem noResetWithin_after {m n : Nat} {s t : State} (h : NoResetWithin (m + n) s)
    (ht : t.resets = resetsAfter m s.resets) : NoResetWithin n t := by
  intro e he
  rw [ht] at he
  cases hs : s.resets with
  | nil => rw [hs] at he; cases he
  | cons x xs =>
    rw [hs] at he
    cases he
    have := h x (by rw [hs]; rfl)
    show n ≤ x.delay - m
    omega

/-- A step at which no `rst` is due is the boundary, without the result delivered before. -/
theorem step_of_no_reset {s : State} (hc : s.cfg.WF) (hr : NoResetWithin 1 s) :
    step s = boundary { s with ret := none, resets := resetsAfter 1 s.resets } := by
  unfold step oneStep
  rw [if_pos hc]
  cases hs : s.resets with
  | nil => simp only [resetsAfter, List.modifyHead]
  | cons e es =>
    have := hr e (by rw [hs]; rfl)
    simp only [resetsAfter, List.modifyHead]
    rw [if_neg (by omega)]

/-- An idle boundary at which no handler enters is the host's move (R156). -/
theorem idleMove_of_no_handler {s : State} (h : NoHandlerEnters s) :
    idleMove s = hostMove { s with handlers := handlersAfter s } := by
  unfold idleMove handlersAfter
  cases hh : s.handlers with
  | nil =>
    simp only [List.modifyHead, ite_self]
    rw [← hh]
  | cons x xs =>
    by_cases hi : s.ie = true
    · have := h hi x (by rw [hh]; rfl)
      show (if s.ie = true then _ else _) = _
      rw [if_pos hi, if_pos hi, if_neg (by omega)]
      rfl
    · show (if s.ie = true then _ else _) = _
      rw [if_neg hi, if_neg hi, ← hh]

/-- Every way a step can answer a next state. -/
theorem step_cases {s t : State} (h : step s = .next t) :
    s.cfg.WF ∧
    ((∃ e es, s.resets = e :: es ∧ e.delay = 0 ∧ t = ({ s with resets := es }).systemReset e) ∨
     ∃ rs, (rs = s.resets ∨ rs.length = s.resets.length) ∧ boundary { s with ret := none, resets := rs } = .next t) := by
  unfold step oneStep at h
  split at h
  · rename_i hc
    refine ⟨hc, ?_⟩
    split at h
    · rename_i hr
      exact .inr ⟨s.resets, .inl rfl, h⟩
    · rename_i e es hr
      split at h
      · rename_i hd
        cases h
        exact .inl ⟨e, es, hr, hd, rfl⟩
      · exact .inr ⟨_, .inr (by simp [hr]), h⟩
  · cases h

/-- Every way a boundary can answer a next state. -/
theorem boundary_cases {s t : State} (h : boundary s = .next t) :
    (∃ w i, s.port = some w ∧ decode s.cfg w = .ok i ∧ exec i { s with port := none } = .next t) ∨
    (s.port = none ∧ s.regs.busy = true ∧ busyTick s = .next t) ∨
    (s.port = none ∧ s.regs.busy = false ∧ idleMove s = .next t) := by
  unfold boundary at h
  split at h
  · rename_i w hw
    unfold runWord at h
    split at h
    · rename_i i hi
      exact .inl ⟨w, i, hw, hi, h⟩
    · cases h
  · rename_i hw
    split at h
    · rename_i hb
      exact .inr (.inl ⟨hw, hb, h⟩)
    · rename_i hb
      exact .inr (.inr ⟨hw, by simpa using hb, h⟩)

/-- A busy step with nothing on the port and no `rst` due is a busy tick (R131). -/
theorem step_busy {s : State} (hc : s.cfg.WF) (hr : NoResetWithin 1 s) (hp : s.port = none) (hb : s.regs.busy = true) :
    step s = busyTick { s with ret := none, resets := resetsAfter 1 s.resets } := by
  rw [step_of_no_reset hc hr]
  unfold boundary
  simp [hp, hb]

/-- An undisturbed idle step is the host's move. -/
theorem step_idle {s : State} (hc : s.cfg.WF) (h : Undisturbed 1 s) (hb : s.regs.busy = false) :
    step s = hostMove { s with ret := none, handlers := handlersAfter s, resets := resetsAfter 1 s.resets } := by
  rw [step_of_no_reset hc h.2.2]
  unfold boundary
  split
  · rename_i w hw
    rw [show _ = none from h.1] at hw
    cases hw
  rw [if_neg (by simp [hb])]
  exact idleMove_of_no_handler (s := { s with ret := none, resets := resetsAfter 1 s.resets }) h.2.1

/-- The pin during a busy tick (R30). -/
theorem pin_of_busy {s : State} (hb : s.regs.busy = true) :
    s.pin = decide (s.regs.ph < highTicks s.cfg s.regs.curBit) := by
  simp [State.pin, hb]

theorem andThen_stepN_zero (o : Out) : andThen o (stepN 0) = o := by
  cases o <;> rfl

/-- The end of a slot does not depend on the tick counter (R133). -/
theorem slotEnd_ph (b : Bit) (s : State) (p : Nat) :
    slotEnd b { s with regs := { s.regs with ph := p } } = slotEnd b s := rfl

/-- The rest of a slot, tick by tick, from tick `ph` on (R131 to R133). -/
theorem slot_ticks {s : State} (hc : s.cfg.WF) (hp : s.port = none) (hb : s.regs.busy = true) (n : Nat)
    (hr : NoResetWithin (n + 1) s) (hn : s.regs.ph + (n + 1) = s.cfg.nT) :
    stepN (n + 1) s = slotEnd s.regs.curBit
      (({ s with ret := none, resets := resetsAfter (n + 1) s.resets } : State).drive
        ((sym s.cfg s.regs.curBit).drop s.regs.ph)) := by
  induction n generalizing s with
  | zero =>
    have hd : (sym s.cfg s.regs.curBit).drop s.regs.ph = [s.pin] := by
      rw [sym_drop hc _ (by omega), pin_of_busy hb, List.drop_of_length_le (by rw [sym_length hc]; omega)]
    rw [stepN, andThen_stepN_zero, step_busy hc hr hp hb, busyTick, advance, if_neg (by simp; omega), hd]
    rfl
  | succ n ih =>
    rw [stepN, step_busy hc (noResetWithin_mono hr (by omega)) hp hb, busyTick, advance, if_pos (by simp; omega), andThen_next]
    refine (ih (s := { ({ s with ret := none, resets := resetsAfter 1 s.resets } : State).drive [s.pin] with
      regs := { s.regs with ph := s.regs.ph + 1 } })
      hc hp hb (noResetWithin_after (m := 1) (s := s) (by rwa [Nat.add_comm]) rfl) (by simp; omega)).trans ?_
    have hd : (sym s.cfg s.regs.curBit).drop s.regs.ph =
        s.pin :: (sym s.cfg s.regs.curBit).drop (s.regs.ph + 1) := by
      rw [sym_drop hc _ (by omega), pin_of_busy hb]
    rw [hd, show (s.pin :: (sym s.cfg s.regs.curBit).drop (s.regs.ph + 1)) =
      [s.pin] ++ (sym s.cfg s.regs.curBit).drop (s.regs.ph + 1) from rfl, ← drive_drive]
    simp only [drive_resets, resetsAfter_resetsAfter, Nat.add_comm 1 (n + 1)]
    exact slotEnd_ph _ ((({ s with ret := none, resets := resetsAfter (n + 1 + 1) s.resets } : State).drive
      [s.pin]).drive ((sym s.cfg s.regs.curBit).drop (s.regs.ph + 1))) _

end Sys2Proof.Laws
end

