-- ==== Sys2Proof/Laws/Exec.lean ====
section
/-! SUPPORT. Every way the operations, the sequencer and the host's moves answer a next state, and what each can change. -/

namespace Sys2Proof.Laws

open Sys2Proof.Machine

/-- The buffer of an admitted command is backed, byte by byte (R92 (3)). -/
theorem backed_of_admitted {s : State} {base len count n : Nat} (h : Admitted s base len count) (hn : n ≤ len) :
    ∀ a, base ≤ a → a < base + 3 * n → backed s.cfg a = true := fun a h1 h2 =>
  (bufferReadable_iff h.2.2.2.1).1 h.2.2.2.2 a h1 (by omega)

/-- Acceptance of an admitted command (R130). -/
theorem accept_eq {s : State} {base len count : Nat} (h : Admitted s base len count) (h0 : 0 < count)
    (hl : count ≤ len) :
    accept base count s = .next { s with
      ie := false, regs := regsAt s.mem base count 0 0, sent := [], reads := s.reads ++ [base] } := by
  unfold accept
  rw [loadByte_of_backed (backed_of_admitted h hl base le_rfl (by omega))]
  rfl

theorem bitDue_iff {b : Bit} {s : State} :
    bitDue b s = true ↔ s.regs.busy = true ∧ s.regs.ph = 0 ∧ s.regs.curBit = b := by
  simp [bitDue, and_assoc]

theorem byteDue_iff {v : Byte} {s : State} :
    byteDue v s = true ↔ s.regs.busy = true ∧ s.regs.ph = 0 ∧ s.regs.k = 0 ∧ s.regs.sh = v := by
  simp [byteDue, and_assoc]

theorem colorDue_iff {c : Color} {s : State} :
    colorDue c s = true ↔ byteDue c.red s = true ∧ s.regs.ch = 0 ∧ stripColor s.mem s.regs.bas s.regs.led = c := by
  simp [colorDue, and_assoc]

theorem emitBits_one (b : Bit) (s : State) : emitBits [b] s = emitBit b s := by
  simp only [emitBits]
  cases emitBit b s <;> rfl

/-- What the end of a slot can change: the position, or everything that completion changes (R133, R134). -/
theorem slotEnd_frame {b : Bit} {s t : State} (h : slotEnd b s = .next t) :
    HostSideUnchanged s t ∧ t.trace = s.trace ∧ t.lowRun = s.lowRun ∧ t.sent = s.sent ++ [b] ∧
    ((t.regs.busy = s.regs.busy ∧ t.ie = s.ie ∧ t.ret = s.ret) ∨ (t.regs = Regs.zero ∧ t.ie = true ∧ t.ret = some .ok)) := by
  unfold slotEnd at h
  simp only at h
  split at h
  · cases h; simp [HostSideUnchanged]
  split at h
  · have := (loadByte_eq_next h).2; cases this; simp [HostSideUnchanged]
  split at h
  · have := (loadByte_eq_next h).2; cases this; simp [HostSideUnchanged]
  · cases h; simp [HostSideUnchanged]

theorem hostSideUnchanged_trans {s t u : State} (h1 : HostSideUnchanged s t) (h2 : HostSideUnchanged t u) :
    HostSideUnchanged s u := by
  unfold HostSideUnchanged at *
  simp_all

/-- What sending bits can change. -/
theorem emitBits_frame {bs : List Bit} {s t : State} (h : emitBits bs s = .next t) :
    HostSideUnchanged s t ∧
    ((t.regs.busy = s.regs.busy ∧ t.ie = s.ie ∧ t.ret = s.ret) ∨
     (t.regs.busy = false ∧ t.ie = true ∧ t.ret = some .ok)) := by
  induction bs generalizing s with
  | nil => cases h; simp [HostSideUnchanged]
  | cons b bs ih =>
    obtain ⟨u, h1, h2⟩ := andThen_eq_next (show andThen (emitBit b s) (emitBits bs) = _ from h)
    obtain ⟨a1, -, -, -, a3⟩ := slotEnd_frame h1
    obtain ⟨b1, b2⟩ := ih h2
    refine ⟨hostSideUnchanged_trans a1 b1, ?_⟩
    rcases b2 with b2 | b2
    · rcases a3 with a3 | ⟨a3, a4⟩
      · exact .inl ⟨b2.1.trans a3.1, b2.2.1.trans a3.2.1, b2.2.2.trans a3.2.2⟩
      · exact .inr ⟨b2.1.trans (by rw [a3]; rfl), b2.2.1.trans a4.1, b2.2.2.trans a4.2⟩
    · exact .inr b2

/-- Every way an operation other than `TRANSMIT` answers a next state: bits sent where they are due, or a low run. -/
theorem exec_wire {i : Instr} {s t : State} (hi : ∀ base len count, i ≠ .transmit base len count)
    (h : exec i s = .next t) :
    (s.regs.busy = true ∧ s.regs.ph = 0 ∧ ∃ bs, emitBits bs s = .next t ∧
      ((i = .bit1 ∧ bs = [true] ∧ bitDue true s = true) ∨
       (i = .bit0 ∧ bs = [false] ∧ bitDue false s = true) ∨
       (∃ v, i = .emitByte v ∧ bs = byteBits v ∧ byteDue v s = true) ∨
       (∃ c, i = .emitColor c ∧ bs = colorBits c ∧ colorDue c s = true))) ∨
    (s.regs.busy = false ∧ ∃ m, i = .latch m ∧ t = s.drive (List.replicate m false)) := by
  cases i with
  | transmit b l c => exact absurd rfl (hi b l c)
  | emitColor c =>
    simp only [exec, execEmitColor] at h
    split at h
    · rename_i hd
      obtain ⟨hb, hp, -⟩ := byteDue_iff.1 (colorDue_iff.1 hd).1
      rw [emitColor_eq] at h
      exact .inl ⟨hb, hp, _, h, by simp [hd]⟩
    · cases h
  | emitByte v =>
    simp only [exec, execEmitByte] at h
    split at h
    · rename_i hd
      obtain ⟨hb, hp, -⟩ := byteDue_iff.1 hd
      exact .inl ⟨hb, hp, _, h, by simp [hd]⟩
    · cases h
  | bit1 =>
    simp only [exec, execBit1] at h
    split at h
    · rename_i hd
      obtain ⟨hb, hp, -⟩ := bitDue_iff.1 hd
      rw [← emitBits_one] at h
      exact .inl ⟨hb, hp, _, h, by simp [hd]⟩
    · cases h
  | bit0 =>
    simp only [exec, execBit0] at h
    split at h
    · rename_i hd
      obtain ⟨hb, hp, -⟩ := bitDue_iff.1 hd
      rw [← emitBits_one] at h
      exact .inl ⟨hb, hp, _, h, by simp [hd]⟩
    · cases h
  | latch m =>
    simp only [exec, execLatch] at h
    split at h
    · cases h
    · rename_i hb
      cases h
      exact .inr ⟨by simpa using hb, m, rfl, rfl⟩

/-- What a busy tick can change (R131, R133). -/
theorem busyTick_frame {s t : State} (h : busyTick s = .next t) :
    HostSideUnchanged s t ∧ t.trace = s.trace ++ [s.pin] ∧ t.lowRun = (if s.pin then 0 else s.lowRun + 1) ∧
    ((t.regs.busy = s.regs.busy ∧ t.ie = s.ie ∧ t.ret = s.ret) ∨ (t.regs = Regs.zero ∧ t.ie = true ∧ t.ret = some .ok)) := by
  unfold busyTick advance at h
  split at h
  · cases h; simp [HostSideUnchanged]
  · obtain ⟨h1, h2, h3, h4, h5⟩ := slotEnd_frame h
    exact ⟨h1, by simpa using h2, by simpa using h3, h5⟩

/-- Every way a command issued to the sequencer answers a next state (R93, R96, R130). -/
theorem issue_cases {s t : State} {base len count : Nat} (h : issue base len count s = .next t) :
    Admitted s base len count ∧ (t = s.raiseInvalidArgument ∨ t = s.completeAtOnce ∨
      (0 < count ∧ count ≤ len ∧
        t = { s with
          ie := false, regs := regsAt s.mem base count 0 0, sent := [], reads := s.reads ++ [base] })) := by
  obtain ⟨ha, h1 | h1 | h1⟩ := command_eq_next h
  · exact ⟨ha, .inl h1.2⟩
  · exact ⟨ha, .inr (.inl h1.2.2)⟩
  · have h2 := h1.2.2
    rw [accept_eq ha h1.2.1 h1.1] at h2
    cases h2
    exact ⟨ha, .inr (.inr ⟨h1.2.1, h1.1, rfl⟩)⟩

/-- Every way a host move answers a next state (R83). -/
theorem hostMove_cases {s t : State} (h : hostMove s = .next t) :
    (∃ r, t = { s with script := r }.drive [false]) ∨
    (∃ r ie oe, t = { s with script := r, ie := ie, pinOe := oe }) ∨
    (∃ a v r, s.script = .poke a v :: r ∧ backed s.cfg a = true ∧ t = { s with script := r, mem := s.mem.write a v }) ∨
    (∃ b l c r, s.script = .transmit b l c :: r ∧ issue b l c { s with script := r } = .next t) := by
  unfold hostMove at h
  split at h
  · cases h; exact .inl ⟨s.script, rfl⟩
  · rename_i a v r hs
    obtain ⟨h1, h2⟩ := ifBacked_eq_next h
    cases h2
    exact .inr (.inr (.inl ⟨a, v, r, hs, h1, rfl⟩))
  · cases h; exact .inr (.inl ⟨_, _, _, rfl⟩)
  · cases h; exact .inr (.inl ⟨_, _, _, rfl⟩)
  · cases h; exact .inr (.inl ⟨_, _, _, rfl⟩)
  · cases h; exact .inr (.inl ⟨_, _, _, rfl⟩)
  · rename_i hs; exact .inr (.inr (.inr ⟨_, _, _, _, hs, h⟩))
  · cases h; exact .inr (.inl ⟨_, _, _, rfl⟩)
  · cases h; exact .inl ⟨_, rfl⟩

/-- Every way an idle boundary answers a next state (R156). -/
theorem idleMove_cases {s t : State} (h : idleMove s = .next t) :
    (∃ h hs, s.handlers = h :: hs ∧ s.ie = true ∧ h.delay = 0 ∧
      t = { s with handlers := hs, script := h.body ++ s.script }) ∨
    (∃ hs, hs.length = s.handlers.length ∧ hostMove { s with handlers := hs } = .next t) := by
  unfold idleMove at h
  split at h
  · rename_i hh
    exact .inr ⟨s.handlers, rfl, h⟩
  · rename_i x hs hh
    split at h
    · split at h
      · cases h; exact .inl ⟨x, hs, hh, by assumption, by assumption, rfl⟩
      · exact .inr ⟨_, by simp [hh], h⟩
    · exact .inr ⟨s.handlers, rfl, h⟩

end Sys2Proof.Laws
end

