-- ==== Sys2Proof/Laws/Memory.lean ====
section
/-! SUPPORT. The laws of the memory (R50): a read after a write, and that every memory operation keeps the canonical form. -/

namespace Sys2Proof.Laws

open Sys2Proof.Machine

@[simp] theorem read_nil (a : Nat) : Memory.read [] a = Memory.unwritten := rfl

theorem read_cons (b : Nat) (v : Byte) (m : Memory) (a : Nat) :
    Memory.read ((b, v) :: m) a = if b = a then v else Memory.read m a := rfl

/-- Every address of `m` is above `n`. -/
def AllAbove (n : Nat) (m : Memory) : Prop := ∀ x ∈ m, n < x.1

/-- `Memory.wf` of a non-empty memory: its first entry is written, the rest lies above it and is in canonical form. -/
theorem wf_cons (a : Nat) (v : Byte) (m : Memory) :
    Memory.wf ((a, v) :: m) = true ↔ v ≠ Memory.unwritten ∧ AllAbove a m ∧ Memory.wf m = true := by
  induction m generalizing a v with
  | nil => simp [Memory.wf, AllAbove]
  | cons y m ih =>
    obtain ⟨b, u⟩ := y
    have h := ih b u
    simp only [Memory.wf, Bool.and_eq_true, decide_eq_true_eq]
    constructor
    · rintro ⟨⟨hv, hab⟩, hw⟩
      refine ⟨hv, ?_, hw⟩
      intro x hx
      rcases List.mem_cons.1 hx with rfl | hx
      · exact hab
      · exact lt_trans hab ((h.1 hw).2.1 x hx)
    · rintro ⟨hv, hall, hw⟩
      exact ⟨⟨hv, hall (b, u) (by simp)⟩, hw⟩

theorem read_of_allAbove {n : Nat} {m : Memory} (h : AllAbove n m) {a : Nat} (ha : a ≤ n) :
    Memory.read m a = Memory.unwritten := by
  induction m with
  | nil => rfl
  | cons y m ih =>
    obtain ⟨b, u⟩ := y
    have hb : n < b := h (b, u) (by simp)
    have hne : b ≠ a := by omega
    rw [read_cons, if_neg hne]
    exact ih fun x hx => h x (by simp [hx])

/-- What a write can list: the entries listed before, and the one written. -/
theorem mem_write {m : Memory} {a : Nat} {v : Byte} {x : Host.Cell} (hx : x ∈ m.write a v) :
    x ∈ m ∨ x = (a, v) := by
  induction m with
  | nil =>
    simp only [Memory.write] at hx
    split at hx <;> simp_all
  | cons y m ih =>
    obtain ⟨b, u⟩ := y
    simp only [Memory.write] at hx
    split at hx
    · rcases List.mem_cons.1 hx with rfl | hx
      · simp
      · rcases ih hx with h | h <;> simp [h]
    · split at hx
      · split at hx
        · simp [hx]
        · rcases List.mem_cons.1 hx with rfl | hx <;> simp [*]
      · split at hx
        · exact .inl hx
        · rcases List.mem_cons.1 hx with rfl | hx <;> simp_all

/-- A write keeps the canonical form. -/
theorem write_wf {m : Memory} (h : Memory.wf m = true) (a : Nat) (v : Byte) : Memory.wf (m.write a v) = true := by
  induction m with
  | nil =>
    simp only [Memory.write]
    split <;> simp_all [Memory.wf]
  | cons y m ih =>
    obtain ⟨b, u⟩ := y
    obtain ⟨hu, hall, hm⟩ := (wf_cons b u m).1 h
    simp only [Memory.write]
    split
    · rename_i hba
      refine (wf_cons b u _).2 ⟨hu, ?_, ih hm⟩
      intro x hx
      rcases mem_write hx with hx | rfl
      · exact hall x hx
      · exact hba
    · rename_i hba
      split
      · rename_i hab
        subst hab
        split
        · exact hm
        · rename_i hv
          exact (wf_cons _ _ _).2 ⟨hv, hall, hm⟩
      · rename_i hab
        split
        · exact h
        · rename_i hv
          refine (wf_cons _ _ _).2 ⟨hv, ?_, h⟩
          intro x hx
          have hlt : a < b := by omega
          rcases List.mem_cons.1 hx with rfl | hx
          · exact hlt
          · exact lt_trans hlt (hall x hx)

/-- A read after a write to the same address gives the value written. -/
@[simp] theorem read_write_same {m : Memory} (h : Memory.wf m = true) (a : Nat) (v : Byte) :
    (m.write a v).read a = v := by
  induction m with
  | nil =>
    simp only [Memory.write]
    split <;> simp_all [Memory.read]
  | cons y m ih =>
    obtain ⟨b, u⟩ := y
    obtain ⟨_, hall, hm⟩ := (wf_cons b u m).1 h
    simp only [Memory.write]
    split
    · rename_i hba
      rw [read_cons, if_neg (by omega)]
      exact ih hm
    · rename_i hba
      split
      · rename_i hab
        subst hab
        split
        · rename_i hv
          rw [read_of_allAbove hall le_rfl, hv]
        · simp [read_cons]
      · rename_i hab
        split
        · rename_i hv
          have hlt : a < b := by omega
          rw [read_cons, if_neg (by omega),
            read_of_allAbove (n := a) (fun x hx => lt_trans hlt (hall x hx)) le_rfl, hv]
        · simp [read_cons]

/-- A write leaves every other address alone. -/
theorem read_write_other {m : Memory} {a a' : Nat} (hne : a' ≠ a) (v : Byte) :
    (m.write a v).read a' = m.read a' := by
  induction m with
  | nil =>
    simp only [Memory.write]
    split <;> simp [read_cons, hne.symm]
  | cons y m ih =>
    obtain ⟨b, u⟩ := y
    simp only [Memory.write]
    split
    · rw [read_cons, read_cons, ih]
    · split
      · rename_i hab
        subst hab
        split <;> simp [read_cons, hne.symm]
      · split
        · rfl
        · simp [read_cons, hne.symm]

/-- The contents that a list of cells gives are in canonical form and list backed addresses only. -/
theorem ofCells_spec (c : Cfg) (cells : List Host.Cell) :
    Memory.wf (Memory.ofCells c cells) = true ∧ ∀ x ∈ Memory.ofCells c cells, backed c x.1 = true := by
  suffices h : ∀ m : Memory, (Memory.wf m = true ∧ ∀ x ∈ m, backed c x.1 = true) →
      (Memory.wf (cells.foldl (fun m x => if backed c x.1 then Memory.write m x.1 x.2 else m) m) = true ∧
        ∀ x ∈ cells.foldl (fun m x => if backed c x.1 then Memory.write m x.1 x.2 else m) m, backed c x.1 = true) from
    h [] ⟨rfl, by simp⟩
  induction cells with
  | nil => exact fun m h => h
  | cons y ys ih =>
    intro m h
    refine ih _ ?_
    dsimp only
    split
    · rename_i hb
      refine ⟨write_wf h.1 _ _, fun x hx => ?_⟩
      rcases mem_write hx with hx | rfl
      · exact h.2 x hx
      · exact hb
    · exact h

/-- Writing several bytes keeps the canonical form. -/
theorem writeAll_wf {m : Memory} (h : Memory.wf m = true) (a : Nat) (vs : List Byte) :
    Memory.wf (m.writeAll a vs) = true := by
  induction vs generalizing m a with
  | nil => exact h
  | cons v vs ih => exact ih (write_wf h a v) (a + 1)

/-- The memory of the state after reset is in canonical form. -/
theorem reset_mem_wf : Memory.wf State.reset.mem = true := rfl

end Sys2Proof.Laws
end

