-- ==== Sys2Proof/Laws/PerInstr.lean ====
section
/-! SUPPORT. One lemma per constructor of `Instr`: the word of a well-formed instruction fits the width it claims. -/

namespace Sys2Proof.Laws

/-- The bits of the word of `i` fit its width, under every well-formed configuration (R70, R72, R73, R75, R78). -/
def WordFits.Statement (i : Instr) : Prop :=
  ∀ c : Cfg, c.WF → i.wf c = true → (encode c i).bits < 2 ^ (encode c i).width

theorem WordFits.transmit (base len count : Nat) : WordFits.Statement (.transmit base len count) := by
  intro c _ hi
  obtain ⟨h1, h2, h3⟩ := of_decide_eq_true (show decide (c.OperandsFit base len count) = true from hi)
  show count * 2 ^ (c.wAddr + c.wCount) + len * 2 ^ c.wAddr + base < 2 ^ cmdWidth c
  rw [pow_cmdWidth, pow_add]
  exact fields_lt h3 h2 h1

theorem WordFits.emitColor (k : Color) : WordFits.Statement (.emitColor k) := by
  intro c _ _
  show k.red.toNat * 65536 + k.green.toNat * 256 + k.blue.toNat < 2 ^ 24
  have := k.red.isLt
  have := k.green.isLt
  have := k.blue.isLt
  omega

theorem WordFits.emitByte (v : Byte) : WordFits.Statement (.emitByte v) :=
  fun _ _ _ => v.isLt

theorem WordFits.bit1 : WordFits.Statement .bit1 :=
  fun _ hc _ => symValue_lt hc true

theorem WordFits.bit0 : WordFits.Statement .bit0 :=
  fun _ hc _ => symValue_lt hc false

theorem WordFits.latch (m : Nat) : WordFits.Statement (.latch m) :=
  fun _ _ _ => Nat.two_pow_pos m

end Sys2Proof.Laws
end

