-- ==== Sys2Proof/Tests/Slice0.lean ====
section
/-! SUPPORT. The model's own tests. Expected values come from the vectors V<n> and the programs P<n> of
`spec/95_test_vectors.md`, from the trace table of R139, and from the encodings of `spec/30_encoding.md`. A theorem
`witness_<Name>` shows that the hypotheses of `Obligations.<Name>` are met together. -/

namespace Sys2Proof.Tests

open Sys2Proof.Machine Sys2Proof.Laws

/-! ### Small states -/

/-- Memory `0x0100: A5 00 FF 01 02 03` (R139, V89). -/
def stripA : Memory := [(0x100, 0xA5), (0x102, 0xFF), (0x103, 0x01), (0x104, 0x02), (0x105, 0x03)]

/-- The idle block with the pin an output, interrupts enabled, that memory, and the line low for `low` ticks. -/
def idleA (low : Nat) : State :=
  { State.reset with pinOe := true, ie := true, mem := stripA, trace := List.replicate low false, lowRun := low }

/-- A command on the buffer at `0x0100` in progress, at a given position. -/
def busyA (cnt led : Nat) (ch : Fin 3) (k : Fin 8) (ph : Nat) : State :=
  { idleA 0 with
    ie := false
    regs := { busy := true, bas := 0x100, cnt := cnt, led := led, ch := ch, k := k, ph := ph,
              sh := stripA.read (chanAddr 0x100 led ch.val) } }

/-- The same machine with lines of a host script to run. -/
def scripted (s : State) (lines : List HostMove) : State := { s with script := lines }

/-- The memory of V40: `0x0200: 12 34 56 FF 00 80`. -/
def idleV40 : State :=
  { idleA 0 with mem := [(0x200, 0x12), (0x201, 0x34), (0x202, 0x56), (0x203, 0xFF), (0x205, 0x80)] }

/-- A configuration whose address `0x0101` no memory backs. -/
def holeA : Cfg := { Cfg.refA with unbacked := [(0x101, 1)] }

/-- A handler whose turn comes at the next boundary but one, and an `rst` due after `n` boundaries. -/
def waiting (n : Nat) (s : State) : State := { s with handlers := [⟨1, [.cli]⟩], resets := [⟨n, []⟩] }

/-- A handler that `IE = 0` keeps out, its delay run down. -/
def masked (s : State) : State := { s with ie := false, handlers := [⟨0, [.sei]⟩] }

theorem next_of_isSome {o : Out} (h : (nextState o).isSome = true) : ∃ t, o = .next t := by
  cases o with
  | next t => exact ⟨t, rfl⟩
  | fault r => cases h
  | refused r => cases h

theorem refA_wf : Cfg.refA.WF := by decide

theorem stripA_wf : Memory.wf stripA = true := by decide

theorem stripA_backed : ∀ x ∈ stripA, backed Cfg.refA x.1 = true := by decide

theorem idleA_inv (low : Nat) : Inv (idleA low) where
  cfg_wf := refA_wf
  mem_wf := stripA_wf
  mem_backed := stripA_backed
  idle_regs := fun _ => rfl
  busy_regs := fun h => by cases h
  low_run_eq := by
    show low = lowRunAfter 0 (List.replicate low false)
    rw [lowRunAfter_replicate_false, Nat.zero_add]

theorem busyA_inv {cnt led : Nat} {ch : Fin 3} {k : Fin 8} {ph : Nat} (h1 : led < cnt) (h2 : cnt ≤ 2) (h3 : ph < 10) :
    Inv (busyA cnt led ch k ph) where
  cfg_wf := refA_wf
  mem_wf := stripA_wf
  mem_backed := stripA_backed
  idle_regs := fun h => by cases h
  busy_regs := fun _ =>
    { ie_clear := rfl
      pinOe_set := rfl
      cnt_pos := by show 1 ≤ cnt; omega
      cnt_fits := by show cnt < 2 ^ 16; omega
      led_lt := h1
      ph_lt := h3
      buffer_fits := by show 0x100 + 3 * cnt ≤ 2 ^ 16; omega
      buffer_backed := by
        intro a _ ha
        have : a < 0x100 + 3 * cnt := ha
        show (decide (a < 2 ^ 16) && true) = true
        rw [Bool.and_true, decide_eq_true_eq]
        omega
      sh_eq := rfl }
  low_run_eq := rfl

/-- The invariant of an idle state does not read `IE`, the script, the handlers or the resets. -/
theorem idleA_inv_with (low : Nat) (ie : Bool) (lines : List HostMove) (hs : List Handler) (rs : List ResetEvent) :
    Inv { idleA low with ie := ie, script := lines, handlers := hs, resets := rs } :=
  have h := idleA_inv low
  { cfg_wf := h.cfg_wf, mem_wf := h.mem_wf, mem_backed := h.mem_backed, idle_regs := h.idle_regs
    busy_regs := fun hb => by cases hb
    low_run_eq := h.low_run_eq }

theorem waiting_inv {n : Nat} {s : State} (h : Inv s) : Inv (waiting n s) :=
  { cfg_wf := h.cfg_wf, mem_wf := h.mem_wf, mem_backed := h.mem_backed, idle_regs := h.idle_regs
    busy_regs := fun hb =>
      have b := h.busy_regs hb
      { ie_clear := b.ie_clear, pinOe_set := b.pinOe_set, cnt_pos := b.cnt_pos, cnt_fits := b.cnt_fits,
        led_lt := b.led_lt, ph_lt := b.ph_lt, buffer_fits := b.buffer_fits, buffer_backed := b.buffer_backed,
        sh_eq := b.sh_eq }
    low_run_eq := h.low_run_eq }

theorem quiet_undisturbed (n : Nat) {s : State} (h1 : s.port = none) (h2 : s.handlers = []) (h3 : s.resets = []) :
    Undisturbed n s :=
  ⟨h1, fun _ x hx => (by rw [h2] at hx; cases hx), fun e he => (by rw [h3] at he; cases he)⟩

theorem waiting_undisturbed {n : Nat} {s : State} (h : s.port = none) : Undisturbed n (waiting n s) :=
  ⟨h, fun _ x hx => (by cases hx; decide), fun e he => (by cases he; exact le_rfl)⟩

theorem masked_undisturbed (n : Nat) {s : State} (h1 : s.port = none) (h2 : s.resets = []) : Undisturbed n (masked s) :=
  ⟨h1, fun hi => (by cases hi), fun e he => (by rw [show (masked s).resets = [] from h2] at he; cases he)⟩

/-! ### Well-formedness: ill-formed terms the check refuses -/

/-- V19a to V19f, one for each line of R8 but the last. -/
theorem test_ill_formed_configurations :
    ¬ (Cfg.ofCounts 125 1 10 6 6 640).WF ∧ ¬ (Cfg.ofCounts 125 1 10 3 6 640).WF ∧
    ¬ (Cfg.ofCounts 125 1 10 8 3 640).WF ∧ ¬ (Cfg.ofCounts 125 1 12 6 3 640).WF ∧
    ¬ (Cfg.ofCounts 125 1 10 10 3 640).WF ∧ ¬ (Cfg.ofCounts 125 1 10 6 3 639).WF := by
  refine ⟨?_, ?_, ?_, ?_, ?_, ?_⟩ <;> decide

/-- R7: `TICK_NS` is positive; R8: the widths are at least 1. -/
theorem test_ill_formed_widths_and_tick :
    ¬ (Cfg.ofCounts 125 0 10 6 3 640).WF ∧ ¬ (Cfg.ofCounts 0 1 10 6 3 640).WF ∧
    ¬ ({ Cfg.refA with wCount := 0 } : Cfg).WF ∧ ¬ ({ Cfg.refA with wAddr := 0 } : Cfg).WF := by
  refine ⟨?_, ?_, ?_, ?_⟩ <;> decide

/-- R8: a high time of a 0 that is too short (125 ns), with every order line met. -/
theorem test_ill_formed_high_of_zero : ¬ (Cfg.ofCounts 125 1 10 6 1 640).WF := by decide

/-- V13 to V16, V19g. -/
theorem test_well_formed_configurations :
    (Cfg.ofCounts 100 1 13 8 4 800).WF ∧ (Cfg.ofCounts 100 1 12 8 3 800).WF ∧ (Cfg.ofCounts 125 1 9 5 3 640).WF ∧
    (Cfg.ofCounts 125 1 11 7 4 640).WF ∧ (Cfg.ofCounts 50 1 25 15 8 1600).WF ∧ (Cfg.ofCounts 50 1 25 15 7 1600).WF := by
  refine ⟨?_, ?_, ?_, ?_, ?_, ?_⟩ <;> decide

/-- R28: each operand must fit its field of the port. -/
theorem test_ill_formed_operands :
    (Instr.transmit 0x10000 0 0).wf Cfg.refA = false ∧ (Instr.transmit 0 0x10000 0).wf Cfg.refA = false ∧
    (Instr.transmit 0 0 0x10000).wf Cfg.refA = false ∧ (Instr.transmit 0xFFFF 0xFFFF 0xFFFF).wf Cfg.refA = true := by
  decide

/-- R78: a low run of 639 ticks is no `LATCH` at instantiation A. -/
theorem test_ill_formed_latch :
    (Instr.latch 639).wf Cfg.refA = false ∧ (Instr.latch 640).wf Cfg.refA = true := by decide

/-! ### Decoding: words written out from the spec -/

/-- P3's first command word, `0x0002_0002_0200`, bit field by bit field (R70). -/
theorem test_decode_transmit :
    decode Cfg.refA ⟨.cmd, 48, 0b000000000000001000000000000000100000001000000000⟩ = .ok (.transmit 0x0200 2 2) := by
  rfl

/-- V32: the Color `(0x80, 0x01, 0x7E)` (R72). -/
theorem test_decode_emitColor :
    decode Cfg.refA ⟨.color24, 24, 0b100000000000000101111110⟩ = .ok (.emitColor ⟨0x80, 0x01, 0x7E⟩) := by rfl

/-- V24 (R73). -/
theorem test_decode_emitByte : decode Cfg.refA ⟨.channel8, 8, 0b10100101⟩ = .ok (.emitByte 0xA5) := by rfl

/-- V1, V3, V5 (R76). -/
theorem test_decode_bit1 :
    decode Cfg.refA ⟨.sym, 10, 0b1111110000⟩ = .ok .bit1 ∧
    decode Cfg.refB ⟨.sym, 20, 0b11111111111100000000⟩ = .ok .bit1 ∧
    decode (Cfg.ofCounts 100 1 12 7 4 800) ⟨.sym, 12, 0b111111100000⟩ = .ok .bit1 := ⟨rfl, rfl, rfl⟩

/-- V2, V4, V6 (R77). -/
theorem test_decode_bit0 :
    decode Cfg.refA ⟨.sym, 10, 0b1110000000⟩ = .ok .bit0 ∧
    decode Cfg.refB ⟨.sym, 20, 0b11111100000000000000⟩ = .ok .bit0 ∧
    decode (Cfg.ofCounts 100 1 12 7 4 800) ⟨.sym, 12, 0b111100000000⟩ = .ok .bit0 := ⟨rfl, rfl, rfl⟩

/-- R78: `0^640` and `0^1000`. -/
theorem test_decode_latch :
    decode Cfg.refA ⟨.idle, 640, 0⟩ = .ok (.latch 640) ∧ decode Cfg.refA ⟨.idle, 1000, 0⟩ = .ok (.latch 1000) := by
  decide +kernel

/-- V73, V74, a short low run (R78), a low run with a pulse in it, and wrong widths. -/
theorem test_decode_rejects :
    decode Cfg.refA ⟨.sym, 10, 0b1111100000⟩ = .error .notASymbol ∧
    decode Cfg.refA ⟨.sym, 10, 0b0111000000⟩ = .error .notASymbol ∧
    decode Cfg.refA ⟨.idle, 639, 0⟩ = .error .tooShortForLatch ∧
    decode Cfg.refA ⟨.idle, 640, 1⟩ = .error .notAllLow ∧
    decode Cfg.refA ⟨.sym, 11, 0⟩ = .error .wrongWidth ∧
    decode Cfg.refA ⟨.channel8, 8, 256⟩ = .error .bitsBeyondWidth := by
  decide +kernel

/-- Every row of the opcode table, numbered as the table numbers it, at instantiation A. -/
theorem test_table_words :
    decodeTableWord 48 0x000100010100 = some (.transmit 0x0100 1 1) ∧
    decodeTableWord 24 0x010203 = some (.emitColor ⟨1, 2, 3⟩) ∧ decodeTableWord 8 0x5A = some (.emitByte 0x5A) ∧
    decodeTableWord 10 0b1111110000 = some .bit1 ∧ decodeTableWord 16 0b1110000000 = some .bit0 ∧
    decodeTableWord 640 0 = some (.latch 640) ∧ decodeTableWord 10 0 = none := by
  decide +kernel

/-- V70 to V74 (R119): the nominal decoder on traces. -/
theorem test_nominal_decoder :
    nominalDecode Cfg.refA (sym Cfg.refA true) = some [true] ∧
    nominalDecode Cfg.refA (sym Cfg.refA true ++ sym Cfg.refA false ++ sym Cfg.refA false) = some [true, false, false] ∧
    nominalDecode Cfg.refA ([true, true, true, true, true] ++ List.replicate 5 false) = none ∧
    nominalDecode Cfg.refA ([false, true, true, true] ++ List.replicate 6 false) = none ∧
    nominalDecode Cfg.refA [true] = none := by
  decide +kernel

/-- V1 to V6: the symbols as ticks. -/
theorem test_symbols :
    sym Cfg.refA true = [true, true, true, true, true, true, false, false, false, false] ∧
    sym Cfg.refA false = [true, true, true, false, false, false, false, false, false, false] := by
  decide

/-! ### One operation each -/

/-- P1: the trace as one number, the low run at the end, the bytes read, `IE`, the result. -/
theorem test_transmit_p1 :
    ((nextState (exec (.transmit 0x0100 1 1) (idleA 640))).map fun t => listValue t.trace) =
      some 0xFC380FC380E03F0E03F0E0380E0380E0380E0380FC3F0FC3F0FC3F0FC3F0 ∧
    ((nextState (exec (.transmit 0x0100 1 1) (idleA 640))).map fun t => (t.lowRun, t.reads, t.ie, t.ret)) =
      some (4, [0x100, 0x101, 0x102], true, some .ok) := by
  decide +kernel

/-- V40: the bits sent, 198 high ticks, `low_run = 7`. -/
theorem test_transmit_v40 :
    ((nextState (exec (.transmit 0x0200 2 2) idleV40)).map fun t => (listValue t.sent, t.trace.count true, t.lowRun)) =
    some (0b000100100011010001010110111111110000000010000000, 198, 7) := by
  decide +kernel

/-- V32: the Color `(0x80, 0x01, 0x7E)` due at the buffer's start sends red, green, blue. -/
theorem test_emitColor_v32 :
    ((nextState (exec (.emitColor ⟨0x80, 0x01, 0x7E⟩)
      { busyA 2 0 0 0 0 with
        mem := [(0x100, 0x80), (0x101, 0x01), (0x102, 0x7E)]
        regs := { (busyA 2 0 0 0 0).regs with sh := 0x80 } })).map fun t =>
      (listValue t.sent, t.trace.count true, t.regs.led, t.regs.busy)) =
    some (0b100000000000000101111110, 96, 1, true) := by
  decide +kernel

/-- The last Color of a frame completes the command (R134). -/
theorem test_emitColor_completes :
    ((nextState (exec (.emitColor ⟨0xA5, 0x00, 0xFF⟩) (busyA 1 0 0 0 0))).map fun t => (t.regs, t.ie, t.ret)) =
    some (Regs.zero, true, some .ok) := by
  decide +kernel

/-- V24: `EMIT_BYTE 0xA5`; V87: the next byte is green, `0x00`. -/
theorem test_emitByte_v24 :
    ((nextState (exec (.emitByte 0xA5) (busyA 1 0 0 0 0))).map fun t =>
      (listValue t.sent, t.trace.count true, t.trace.length, t.regs.ch, t.regs.sh)) =
    some (0b10100101, 36, 80, 1, 0x00) := by
  decide +kernel

/-- V1: `BIT1`; the next bit of `0xA5` is due. -/
theorem test_bit1_v1 :
    ((nextState (exec .bit1 (busyA 1 0 0 0 0))).map fun t => (listValue t.trace, t.regs.k, t.sent)) =
    some (0b1111110000, 1, [true]) := by
  decide +kernel

/-- V2: `BIT0`. -/
theorem test_bit0_v2 :
    ((nextState (exec .bit0 (busyA 1 0 0 1 0))).map fun t => (listValue t.trace, t.regs.k, t.sent)) =
    some (0b1110000000, 2, [false]) := by
  decide +kernel

/-- V60: 636 low ticks after a frame that ended in a 1 make 640. -/
theorem test_latch_v60 :
    ((nextState (exec (.latch 636) { idleA 0 with lowRun := 4 })).map fun t => (t.lowRun, t.trace.length)) =
    some (640, 636) := by
  decide +kernel

/-! ### The sequencer, one step -/

/-- P3: the strip at `0x0200`, written by the `POKE` lines it abbreviates; the second line stores green. -/
theorem test_poke_strip :
    pokeStrip 0x0200 [⟨0x12, 0x34, 0x56⟩, ⟨0xFF, 0x00, 0x80⟩] =
      [.poke 0x200 0x12, .poke 0x201 0x34, .poke 0x202 0x56, .poke 0x203 0xFF, .poke 0x204 0x00, .poke 0x205 0x80] ∧
    ((nextState (step (scripted (idleA 0) [.poke 0x201 0x34]))).map fun t => (t.mem.read 0x201, t.mem.read 0x100)) =
      some (0x34, 0xA5) := by
  decide +kernel

/-- V80: acceptance. -/
theorem test_step_v80 :
    ((nextState (step (scripted (idleA 640) [.transmit 0x0100 1 1]))).map fun t => (t.regs, t.ie, t.reads)) =
    some ({ busy := true, bas := 0x100, cnt := 1, led := 0, ch := 0, k := 0, ph := 0, sh := 0xA5 }, false, [0x100]) := by
  decide +kernel

/-- V81, V82, V83: inside a slot. -/
theorem test_step_inside_a_slot :
    ((nextState (step (busyA 1 0 0 0 0))).map fun t => (t.trace, t.regs)) = some ([true], (busyA 1 0 0 0 1).regs) ∧
    ((nextState (step (busyA 1 0 0 0 5))).map fun t => (t.trace, t.regs)) = some ([true], (busyA 1 0 0 0 6).regs) ∧
    ((nextState (step (busyA 1 0 0 0 6))).map fun t => (t.trace, t.regs)) = some ([false], (busyA 1 0 0 0 7).regs) := by
  decide +kernel

/-- V84 to V86: the end of a slot, and a bit 0. -/
theorem test_step_next_bit :
    ((nextState (step (busyA 1 0 0 0 9))).map fun t => (t.trace, t.regs)) = some ([false], (busyA 1 0 0 1 0).regs) ∧
    ((nextState (step (busyA 1 0 0 1 2))).map fun t => t.trace) = some [true] ∧
    ((nextState (step (busyA 1 0 0 1 3))).map fun t => t.trace) = some [false] := by
  decide +kernel

/-- V87, V88, and V89 with `cnt = 2`: the next byte is read. -/
theorem test_step_next_byte :
    ((nextState (step (busyA 1 0 0 7 9))).map fun t => (t.regs.ch, t.regs.k, t.regs.sh, t.reads)) =
      some (1, 0, 0x00, [0x101]) ∧
    ((nextState (step (busyA 1 0 1 7 9))).map fun t => (t.regs.ch, t.regs.k, t.regs.sh, t.reads)) =
      some (2, 0, 0xFF, [0x102]) ∧
    ((nextState (step (busyA 2 0 2 7 9))).map fun t => (t.regs.led, t.regs.ch, t.regs.sh, t.reads)) =
      some (1, 0, 0x01, [0x103]) := by
  decide +kernel

/-- V89, V90: completion and the idle tick. -/
theorem test_step_completion_and_idle :
    ((nextState (step (busyA 1 0 2 7 9))).map fun t => (t.regs, t.ie, t.ret, t.reads)) =
      some (Regs.zero, true, some .ok, []) ∧
    ((nextState (step (idleA 3))).map fun t => (t.regs, t.lowRun, t.ret)) = some (Regs.zero, 4, none) := by
  decide +kernel

/-- V42, V45, V46: zero-tick commands end with `IE = 1`. -/
theorem test_step_zero_tick_commands :
    ((nextState (step (scripted { idleV40 with ie := false } [.transmit 0x0200 2 0]))).map fun t =>
      (t.ret, t.ie, t.trace)) = some (some .ok, true, []) ∧
    ((nextState (step (scripted { idleV40 with ie := false } [.transmit 0x0200 2 3]))).map fun t =>
      (t.ret, t.ie, t.reads)) = some (some .invalidArgument, true, []) := by
  decide +kernel

/-- V50, V51, V53, V54: the refusals, before `InvalidArgument` and before `count = 0`. -/
theorem test_refusals :
    exec (.transmit 0x0200 2 2) { idleV40 with pinOe := false } = .refused .pinNotOutput ∧
    exec (.transmit 0xFFFE 1 1) idleV40 = .refused .bufferDoesNotFit ∧
    exec (.transmit 0xFFFE 1 0) idleV40 = .refused .bufferDoesNotFit ∧
    exec (.transmit 0x0200 2 3) { idleV40 with pinOe := false } = .refused .pinNotOutput ∧
    exec (.transmit 0x0100 1 1) { idleA 0 with cfg := holeA } = .refused .bufferUnreadable :=
  ⟨rfl, rfl, rfl, rfl, rfl⟩

/-- A word placed by `withFetchWord` runs as the first operation after reset, one for each row of the table. -/
theorem test_first_after_reset :
    ((nextState (step (State.reset.withFetchWord 48 0))).map fun t => t.ret) = some (some .ok) ∧
    ((nextState (step (State.reset.withFetchWord 24 0x010203))).map fun t => listValue t.sent) = some 0x010203 ∧
    ((nextState (step (State.reset.withFetchWord 8 0xA5))).map fun t => listValue t.sent) = some 0xA5 ∧
    ((nextState (step (State.reset.withFetchWord 10 0b1111110000))).map fun t => t.sent) = some [true] ∧
    ((nextState (step (State.reset.withFetchWord 10 0b1110000000))).map fun t => t.sent) = some [false] ∧
    ((nextState (step (State.reset.withFetchWord 640 0))).map fun t => t.lowRun) = some 640 := by
  decide +kernel

/-! ### Witnesses: the hypotheses of every statement are met together -/

/-- Two commands' worth of hypotheses on `idleA`: it admits every operand triple of a small buffer at `0x0100`. -/
theorem idleA_admits (low : Nat) {len count : Nat} (h1 : len < 2 ^ 16) (h2 : count < 2 ^ 16)
    (h3 : 0x100 + 3 * len ≤ 2 ^ 16) : Admitted (idleA low) 0x100 len count :=
  ⟨rfl, ⟨(by decide : (0x100 : Nat) < 2 ^ 16), h1, h2⟩, rfl,
    decide_eq_true (show 0x100 + 3 * len ≤ 2 ^ 16 from h3), rfl⟩

/-- Every constructor, at the largest operands of a command and the shortest latch. -/
theorem witness_DecodeOfEncodeIsTheInstruction :
    Cfg.refA.WF ∧ (Instr.transmit 0xFFFF 0xFFFF 0xFFFF).wf Cfg.refA = true ∧
    (Instr.emitColor ⟨0xFF, 0x80, 0x01⟩).wf Cfg.refA = true ∧ (Instr.emitByte 0xFF).wf Cfg.refA = true ∧
    Instr.bit1.wf Cfg.refA = true ∧ Instr.bit0.wf Cfg.refA = true ∧ (Instr.latch 640).wf Cfg.refA = true :=
  ⟨refA_wf, by decide⟩

theorem witness_EncodeOfDecodeIsTheWord :
    ∃ c w i, decode c w = .ok i := ⟨Cfg.refA, ⟨.cmd, 48, 0x000100010100⟩, .transmit 0x0100 1 1, rfl⟩

/-- The largest command word. -/
theorem witness_EveryCommandWordDecodes :
    0xFFFFFFFFFFFF < 2 ^ (Cfg.refA.wAddr + 2 * Cfg.refA.wCount) := by decide

theorem witness_SlotHasHeadDataTail : Cfg.refA.WF ∧ Cfg.refB.WF := ⟨refA_wf, by decide⟩

theorem witness_NominalDecoderInvertsTheWave : Cfg.refA.WF := refA_wf

/-- Two buffers that agree in the one Color sent and differ after it. -/
theorem witness_WaveIsInjective :
    Cfg.refA.WF ∧
    wave Cfg.refA (fun _ => ⟨0xA5, 0, 0xFF⟩) 1 =
      wave Cfg.refA (fun i => if i = 0 then ⟨0xA5, 0, 0xFF⟩ else ⟨0, 0, 0⟩) 1 :=
  ⟨refA_wf, by decide +kernel⟩

theorem witness_WaveShape : Cfg.refA.WF ∧ 0 < 1 := ⟨refA_wf, Nat.one_pos⟩

/-- Both sides of the equivalence hold at the first tick and at the last rising edge of a frame, and fail beside them. -/
theorem witness_RisingEdgesAreEvenlySpaced :
    Cfg.refA.WF ∧ (wave Cfg.refA (fun _ => ⟨0, 0, 0⟩) 1)[0]? = some true ∧
    (wave Cfg.refA (fun _ => ⟨0, 0, 0⟩) 1)[230]? = some true ∧
    (wave Cfg.refA (fun _ => ⟨0, 0, 0⟩) 1)[229]? = some false ∧ (wave Cfg.refA (fun _ => ⟨0, 0, 0⟩) 1)[240]? = none :=
  ⟨refA_wf, by decide +kernel⟩

/-- The longest low run of a frame: seven ticks after the head of a 0. -/
theorem witness_NoLatchInsideAFrame :
    Cfg.refA.WF ∧ wave Cfg.refA (fun _ => ⟨0, 0, 0⟩) 1 =
      [true, true, true] ++ List.replicate 7 false ++ true :: (wave Cfg.refA (fun _ => ⟨0, 0, 0⟩) 1).drop 11 :=
  ⟨refA_wf, by decide +kernel⟩

/-- A frame of one Color and one of the whole buffer. -/
theorem witness_TransmitSendsTheWholeFrame :
    (idleA 640).cfg.WF ∧ Admitted (idleA 640) 0x100 2 1 ∧ Admitted (idleA 640) 0x100 2 2 ∧ 0 < 1 ∧ 1 ≤ 2 :=
  ⟨refA_wf, idleA_admits _ (by decide) (by decide) (by decide), idleA_admits _ (by decide) (by decide) (by decide),
    by decide, by decide⟩

/-- V52's boundary: the buffer ends at the top of the address space. -/
theorem witness_transmit_at_the_top : Admitted (idleA 640) 0xFFFD 1 1 := by
  refine ⟨rfl, ?_, rfl, rfl, rfl⟩
  decide

theorem witness_TransmitOfNoColorsCompletesAtOnce :
    Admitted (idleA 0) 0x100 2 0 ∧ Admitted (idleA 0) 0x100 0 0 :=
  ⟨idleA_admits _ (by decide) (by decide) (by decide), idleA_admits _ (by decide) (by decide) (by decide)⟩

theorem witness_TransmitBeyondTheBufferIsInvalidArgument :
    Admitted (idleA 0) 0x100 2 3 ∧ 2 < 3 ∧ Admitted (idleA 0) 0x100 0 0xFFFF ∧ 0 < 0xFFFF :=
  ⟨idleA_admits _ (by decide) (by decide) (by decide), by decide,
    idleA_admits _ (by decide) (by decide) (by decide), by decide⟩

/-- Each of the three clauses; the second one address beyond the top, the third with the last byte of the buffer not backed. -/
theorem witness_TransmitRefusalsComeFirstInOrder :
    ((State.reset).regs.busy = false ∧ State.reset.cfg.OperandsFit 0x100 1 1 ∧ State.reset.pinOe = false) ∧
    ((idleA 0).regs.busy = false ∧ (idleA 0).cfg.OperandsFit 0xFFFE 1 0 ∧ (idleA 0).pinOe = true ∧
      2 ^ (idleA 0).cfg.wAddr < 0xFFFE + 3 * 1) ∧
    (({ idleA 0 with cfg := holeA } : State).regs.busy = false ∧ holeA.OperandsFit 0xFF 1 1 ∧
      ({ idleA 0 with cfg := holeA } : State).pinOe = true ∧ 0xFF + 3 * 1 ≤ 2 ^ holeA.wAddr ∧
      ∃ a, 0xFF ≤ a ∧ a < 0xFF + 3 * 1 ∧ backed holeA a = false) := by
  refine ⟨by decide, by decide, rfl, by decide, rfl, by decide, 0x101, by decide, by decide, by decide⟩

/-- A next state on each path: a whole frame, no Colors, too many. -/
theorem witness_TransmitEndState :
    Inv (idleA 640) ∧ (∃ t, exec (.transmit 0x100 1 1) (idleA 640) = .next t) ∧
    (∃ t, exec (.transmit 0x100 1 0) (idleA 640) = .next t) ∧ ∃ t, exec (.transmit 0x100 1 2) (idleA 640) = .next t :=
  ⟨idleA_inv _, next_of_isSome (by decide +kernel), next_of_isSome (by decide +kernel),
    next_of_isSome (by decide +kernel)⟩

theorem witness_TransmitReadsTheBufferOnceInOrder :
    (∃ t, exec (.transmit 0x100 2 2) (idleA 640) = .next t) ∧ ∃ t, exec (.transmit 0x100 1 2) (idleA 640) = .next t :=
  ⟨next_of_isSome (by decide +kernel), next_of_isSome (by decide +kernel)⟩

theorem witness_TransmitDoesNotDependOnLatchPeriod :
    (idleA 4).cfg.WF ∧ Admitted (idleA 4) 0x100 1 1 ∧ 0 < 1 ∧ 1 ≤ 1 :=
  ⟨refA_wf, idleA_admits _ (by decide) (by decide) (by decide), by decide, by decide⟩

/-- V60: a wait of exactly `640 - 4` ticks. -/
theorem witness_WaitingAfterAFrameSeparatesTheNext :
    (idleA 640).cfg.WF ∧ Admitted (idleA 640) 0x100 1 1 ∧ 0 < 1 ∧ 1 ≤ 1 ∧
    (∃ t u, exec (.transmit 0x100 1 1) (idleA 640) = .next t ∧ exec (.latch 636) t = .next u) ∧
    (idleA 640).cfg.nReset - ((idleA 640).cfg.nT - (idleA 640).cfg.n1H) = 636 := by
  refine ⟨refA_wf, idleA_admits _ (by decide) (by decide) (by decide), by decide, by decide, ?_, rfl⟩
  obtain ⟨u, hu⟩ := next_of_isSome
    (o := andThen (exec (.transmit 0x100 1 1) (idleA 640)) (exec (.latch 636))) (by decide +kernel)
  obtain ⟨t, h1, h2⟩ := andThen_eq_next hu
  exact ⟨t, u, h1, h2⟩

/-- A first bit and a last one. -/
theorem witness_Bit1SendsItsSlot :
    (Inv (busyA 1 0 0 0 0) ∧ bitDue true (busyA 1 0 0 0 0) = true) ∧
    (Inv (busyA 1 0 2 7 0) ∧ bitDue true (busyA 1 0 2 7 0) = true) :=
  ⟨⟨busyA_inv (by decide) (by decide) (by decide), by decide⟩, busyA_inv (by decide) (by decide) (by decide), by decide⟩

theorem witness_Bit0SendsItsSlot :
    (Inv (busyA 1 0 0 1 0) ∧ bitDue false (busyA 1 0 0 1 0) = true) ∧
    (Inv (busyA 1 0 1 7 0) ∧ bitDue false (busyA 1 0 1 7 0) = true) :=
  ⟨⟨busyA_inv (by decide) (by decide) (by decide), by decide⟩, busyA_inv (by decide) (by decide) (by decide), by decide⟩

/-- A first byte and a last one. -/
theorem witness_EmitByteSendsEightSlots :
    (Inv (busyA 1 0 0 0 0) ∧ byteDue 0xA5 (busyA 1 0 0 0 0) = true) ∧
    (Inv (busyA 1 0 2 0 0) ∧ byteDue 0xFF (busyA 1 0 2 0 0) = true) :=
  ⟨⟨busyA_inv (by decide) (by decide) (by decide), by decide⟩, busyA_inv (by decide) (by decide) (by decide), by decide⟩

/-- A first Color that is followed by another, and a last one. -/
theorem witness_EmitColorSendsRedGreenBlue :
    (Inv (busyA 2 0 0 0 0) ∧ colorDue ⟨0xA5, 0x00, 0xFF⟩ (busyA 2 0 0 0 0) = true) ∧
    (Inv (busyA 2 1 0 0 0) ∧ colorDue ⟨0x01, 0x02, 0x03⟩ (busyA 2 1 0 0 0) = true) :=
  ⟨⟨busyA_inv (by decide) (by decide) (by decide), by decide⟩, busyA_inv (by decide) (by decide) (by decide), by decide⟩

/-- A run of exactly `N_RESET` ticks. -/
theorem witness_LatchIsARunOfLowTicks :
    (idleA 0).regs.busy = false ∧ (idleA 0).cfg.nReset ≤ 640 ∧ ∃ t, exec (.latch 640) (idleA 0) = .next t :=
  ⟨rfl, by decide, next_of_isSome (by decide +kernel)⟩

theorem witness_FrameStepsExistOnlyInsideACommand : (idleA 0).regs.busy = false := rfl

/-- Each of the clauses: a bit, a byte, a Color that is not due; a busy block; an operand one bit too wide. -/
theorem witness_WhatIsNotDueIsRefusedByName :
    bitDue true (busyA 1 0 0 1 0) = false ∧ bitDue false (busyA 1 0 0 0 0) = false ∧
    byteDue 0xA5 (busyA 1 0 0 1 0) = false ∧ colorDue ⟨0xA5, 0x00, 0xFE⟩ (busyA 1 0 0 0 0) = false ∧
    (busyA 1 0 0 0 0).regs.busy = true ∧
    (idleA 0).regs.busy = false ∧ ¬ (idleA 0).cfg.OperandsFit 0x100 0 0x10000 := by
  decide

/-- A bit inside a frame, the bit that completes one, and a latch. -/
theorem witness_FrameStepsChangeNothingElse :
    (∃ t, exec .bit1 (busyA 1 0 0 0 0) = .next t ∧ t.regs.busy = (busyA 1 0 0 0 0).regs.busy) ∧
    (∃ t, exec .bit1 (busyA 1 0 2 7 0) = .next t) ∧
    ((idleA 0).regs.busy = false ∧ ∃ t, exec (.latch 640) (idleA 0) = .next t) ∧
    ∀ base len count, Instr.bit1 ≠ .transmit base len count ∧ Instr.latch 640 ≠ .transmit base len count := by
  refine ⟨?_, next_of_isSome (by decide +kernel), ⟨rfl, next_of_isSome (by decide +kernel)⟩, by simp⟩
  exact ⟨_, rfl, rfl⟩

/-- Each of the two clauses, a word that decodes and one that does not, with an `rst` due after one more boundary. -/
theorem witness_StepRunsTheDecodedWord :
    (let s := { waiting 1 (idleA 640) with port := some ⟨.cmd, 48, 0x000100010100⟩ }
     s.cfg.WF ∧ NoResetWithin 1 s ∧ decode s.cfg ⟨.cmd, 48, 0x000100010100⟩ = .ok (.transmit 0x0100 1 1)) ∧
    (let s := { waiting 1 (idleA 640) with port := some ⟨.sym, 10, 0b1111100000⟩ }
     s.cfg.WF ∧ NoResetWithin 1 s ∧ decode s.cfg ⟨.sym, 10, 0b1111100000⟩ = .error .notASymbol) :=
  ⟨⟨refA_wf, (waiting_undisturbed (s := idleA 640) rfl).2.2, rfl⟩, refA_wf,
    (waiting_undisturbed (s := idleA 640) rfl).2.2, rfl⟩

/-- With nothing waiting, with a handler and an `rst` waiting, and with a handler masked. -/
theorem witness_AcceptanceLoadsTheRegisters :
    (idleA 640).cfg.WF ∧ Undisturbed 1 (scripted (idleA 640) [.transmit 0x100 2 2]) ∧
    Undisturbed 1 (waiting 1 (scripted (idleA 640) [.transmit 0x100 2 2])) ∧
    Undisturbed 1 (masked (scripted (idleA 640) [.transmit 0x100 2 2])) ∧
    Admitted (scripted (idleA 640) [.transmit 0x100 2 2]) 0x100 2 2 ∧ 0 < 2 ∧ 2 ≤ 2 :=
  ⟨refA_wf, quiet_undisturbed 1 rfl rfl rfl, waiting_undisturbed rfl, masked_undisturbed 1 rfl rfl,
    idleA_admits 640 (by decide) (by decide) (by decide), by decide, by decide⟩

/-- Each of the two clauses, at `count = 0` and at `count = len + 1`. -/
theorem witness_ZeroTickCommandsTakeOneBoundary :
    (idleA 0).cfg.WF ∧
    (Undisturbed 1 (masked (scripted (idleA 0) [.transmit 0x100 2 0])) ∧
      Admitted (masked (scripted (idleA 0) [.transmit 0x100 2 0])) 0x100 2 0) ∧
    (Undisturbed 1 (waiting 1 (scripted (idleA 0) [.transmit 0x100 2 3])) ∧
      Admitted (waiting 1 (scripted (idleA 0) [.transmit 0x100 2 3])) 0x100 2 3 ∧ 2 < 3) :=
  ⟨refA_wf, ⟨masked_undisturbed 1 rfl rfl, idleA_admits 0 (by decide) (by decide) (by decide)⟩,
    waiting_undisturbed rfl, idleA_admits 0 (by decide) (by decide) (by decide), by decide⟩

/-- Ticks 2, 3, 5 and 6 of a slot: the bounds of its three parts. -/
theorem witness_BusyTickDrivesHeadDataTail :
    (∃ t, step (busyA 1 0 0 0 2) = .next t) ∧ 2 < (busyA 1 0 0 0 2).cfg.n0H ∧
    (∃ t, step (busyA 1 0 0 0 3) = .next t) ∧ (busyA 1 0 0 0 3).cfg.n0H ≤ 3 ∧
    (∃ t, step (busyA 1 0 0 0 5) = .next t) ∧ 5 < (busyA 1 0 0 0 5).cfg.n1H ∧
    (∃ t, step (busyA 1 0 0 0 6) = .next t) ∧ (busyA 1 0 0 0 6).cfg.n1H ≤ 6 ∧
    NoResetWithin 1 (busyA 1 0 0 0 2) ∧ (busyA 1 0 0 0 2).port = none ∧ (busyA 1 0 0 0 2).regs.busy = true :=
  ⟨next_of_isSome (by decide +kernel), by decide, next_of_isSome (by decide +kernel), by decide,
    next_of_isSome (by decide +kernel), by decide, next_of_isSome (by decide +kernel), by decide,
    (quiet_undisturbed 1 rfl rfl rfl).2.2, rfl, rfl⟩

/-- Each of the four clauses, at the bounds of its counters. -/
theorem witness_AdvanceFollowsTheCounterNest :
    (Inv (busyA 2 0 0 0 8) ∧ (busyA 2 0 0 0 8).regs.ph < (busyA 2 0 0 0 8).cfg.nT - 1) ∧
    (Inv (busyA 2 0 0 6 9) ∧ (busyA 2 0 0 6 9).regs.ph = (busyA 2 0 0 6 9).cfg.nT - 1 ∧ (busyA 2 0 0 6 9).regs.k.val < 7) ∧
    (Inv (busyA 2 0 1 7 9) ∧ (busyA 2 0 1 7 9).regs.ph = (busyA 2 0 1 7 9).cfg.nT - 1 ∧
      (busyA 2 0 1 7 9).regs.k.val = 7 ∧ (busyA 2 0 1 7 9).regs.ch.val < 2) ∧
    (Inv (busyA 2 0 2 7 9) ∧ (busyA 2 0 2 7 9).regs.ph = (busyA 2 0 2 7 9).cfg.nT - 1 ∧ (busyA 2 0 2 7 9).regs.k.val = 7 ∧
      (busyA 2 0 2 7 9).regs.ch.val = 2 ∧ (busyA 2 0 2 7 9).regs.led < (busyA 2 0 2 7 9).regs.cnt - 1) ∧
    (Inv (waiting 1 (busyA 2 0 0 0 8)) ∧ NoResetWithin 1 (waiting 1 (busyA 2 0 0 0 8))) :=
  ⟨⟨busyA_inv (by decide) (by decide) (by decide), by decide⟩, ⟨busyA_inv (by decide) (by decide) (by decide), by decide⟩,
    ⟨busyA_inv (by decide) (by decide) (by decide), by decide⟩, ⟨busyA_inv (by decide) (by decide) (by decide), by decide⟩,
    waiting_inv (busyA_inv (by decide) (by decide) (by decide)), (waiting_undisturbed (s := busyA 2 0 0 0 8) rfl).2.2⟩

theorem witness_CompletionClearsTheBlock :
    Inv (waiting 1 (busyA 1 0 2 7 9)) ∧ NoResetWithin 1 (waiting 1 (busyA 1 0 2 7 9)) ∧ (busyA 1 0 2 7 9).port = none ∧
    (busyA 1 0 2 7 9).regs.busy = true ∧ (busyA 1 0 2 7 9).regs.led = (busyA 1 0 2 7 9).regs.cnt - 1 ∧
    (busyA 1 0 2 7 9).regs.ch.val = 2 ∧ (busyA 1 0 2 7 9).regs.k.val = 7 ∧
    (busyA 1 0 2 7 9).regs.ph = (busyA 1 0 2 7 9).cfg.nT - 1 :=
  ⟨waiting_inv (busyA_inv (by decide) (by decide) (by decide)), (waiting_undisturbed (s := busyA 1 0 2 7 9) rfl).2.2,
    by decide⟩

/-- Each of the two clauses, with a handler masked and with a handler and an `rst` waiting. -/
theorem witness_IdleTickKeepsTheLineLow :
    ((idleA 0).cfg.WF ∧ Undisturbed 1 (masked (idleA 0)) ∧ (masked (idleA 0)).regs.busy = false ∧
      (masked (idleA 0)).script = []) ∧
    (Undisturbed 1 (waiting 1 (scripted (idleA 0) [.wait 1])) ∧
      (waiting 1 (scripted (idleA 0) [.wait 1])).script = .wait (0 + 1) :: []) :=
  ⟨⟨refA_wf, masked_undisturbed 1 rfl rfl, rfl, rfl⟩, waiting_undisturbed rfl, rfl⟩

/-- The first and the last tick of a frame of one Color, with a handler and an `rst` waiting, the `rst` due at the boundary
after that tick. -/
theorem witness_TicksFollowTheFrame :
    (scripted (idleA 640) [.transmit 0x100 1 1]).cfg.WF ∧
    Undisturbed (1 + 0) (waiting 1 (scripted (idleA 640) [.transmit 0x100 1 1])) ∧
    Undisturbed (1 + 239) (waiting 240 (scripted (idleA 640) [.transmit 0x100 1 1])) ∧
    Admitted (waiting 240 (scripted (idleA 640) [.transmit 0x100 1 1])) 0x100 1 1 ∧ 0 < 1 ∧ 1 ≤ 1 ∧
    0 < 24 * 1 * (idleA 640).cfg.nT ∧ 239 < 24 * 1 * (idleA 640).cfg.nT :=
  ⟨refA_wf, waiting_undisturbed (n := 1) rfl, waiting_undisturbed (n := 240) rfl,
    idleA_admits 640 (by decide) (by decide) (by decide), by decide, by decide, by decide, by decide⟩

/-- A frame of one Color and a command of none, an `rst` due at the boundary after. -/
theorem witness_TickByTickAgreesWithTheOperation :
    (scripted (idleA 640) [.transmit 0x100 1 1]).cfg.WF ∧
    Undisturbed (1 + 24 * 1 * (idleA 640).cfg.nT) (waiting 241 (scripted (idleA 640) [.transmit 0x100 1 1])) ∧
    Admitted (waiting 241 (scripted (idleA 640) [.transmit 0x100 1 1])) 0x100 1 1 ∧ 1 ≤ 1 ∧
    Undisturbed (1 + 24 * 0 * (idleA 640).cfg.nT) (waiting 1 (scripted (idleA 640) [.transmit 0x100 1 0])) ∧
    Admitted (waiting 1 (scripted (idleA 640) [.transmit 0x100 1 0])) 0x100 1 0 ∧ 0 ≤ 1 :=
  ⟨refA_wf, waiting_undisturbed (n := 241) rfl, idleA_admits 640 (by decide) (by decide) (by decide), by decide,
    waiting_undisturbed (n := 1) rfl, idleA_admits 640 (by decide) (by decide) (by decide), by decide⟩

/-- Each of the four clauses. -/
theorem witness_FrameStepsAreTheirTicks :
    (Inv (busyA 1 0 0 0 0) ∧ bitDue true (busyA 1 0 0 0 0) = true ∧ byteDue 0xA5 (busyA 1 0 0 0 0) = true ∧
      colorDue ⟨0xA5, 0x00, 0xFF⟩ (busyA 1 0 0 0 0) = true) ∧
    (Inv (waiting 10 (busyA 1 0 0 1 0)) ∧ bitDue false (waiting 10 (busyA 1 0 0 1 0)) = true) ∧
    NoResetWithin (busyA 1 0 0 1 0).cfg.nT (waiting 10 (busyA 1 0 0 1 0)) ∧
    NoResetWithin (24 * (busyA 1 0 0 0 0).cfg.nT) (busyA 1 0 0 0 0) ∧ (busyA 1 0 0 0 0).port = none :=
  ⟨⟨busyA_inv (by decide) (by decide) (by decide), by decide⟩,
    ⟨waiting_inv (busyA_inv (by decide) (by decide) (by decide)), by decide⟩,
    (waiting_undisturbed (n := 10) (s := busyA 1 0 0 1 0) rfl).2.2, (quiet_undisturbed _ rfl rfl rfl).2.2, rfl⟩

/-- In mid-frame, with a step that stays busy; and at the last tick, with an `rst` due at the boundary after. -/
theorem witness_EveryCommandTerminates :
    (Inv (busyA 2 0 1 3 4) ∧ (busyA 2 0 1 3 4).port = none ∧ (busyA 2 0 1 3 4).regs.busy = true ∧
      ∃ t, step (busyA 2 0 1 3 4) = .next t ∧ t.regs.busy = true) ∧
    (let s := waiting 1 (busyA 2 1 2 7 9)
     Inv s ∧ NoResetWithin (24 * s.regs.cnt * s.cfg.nT - s.tickOffset) s) :=
  ⟨⟨busyA_inv (by decide) (by decide) (by decide), rfl, rfl, ⟨_, rfl, rfl⟩⟩,
    waiting_inv (busyA_inv (by decide) (by decide) (by decide)),
    (waiting_undisturbed (n := 1) (s := busyA 2 1 2 7 9) rfl).2.2⟩

theorem witness_InvariantHoldsAtReset : Cfg.refB.WF := by decide

/-- While busy and while idle. -/
theorem witness_EveryStepKeepsTheInvariant :
    (Inv (busyA 2 0 1 3 4) ∧ ∃ t, step (busyA 2 0 1 3 4) = .next t) ∧
    (Inv (idleA 0) ∧ ∃ t, step (idleA 0) = .next t) :=
  ⟨⟨busyA_inv (by decide) (by decide) (by decide), next_of_isSome (by decide +kernel)⟩, idleA_inv _,
    next_of_isSome (by decide +kernel)⟩

/-- Tick 3 of the second slot of `0xA5`: one whole slot and three ticks of the next are on the line. -/
theorem witness_EveryStepKeepsTheLineMadeOfWholeFrames :
    let s : State := { busyA 1 0 0 1 3 with
      sent := [true], trace := sym Cfg.refA true ++ [true, true, true], lowRun := 0 }
    Inv s ∧ LineInv s ∧ ∃ t, step s = .next t := by
  refine ⟨?_, ⟨⟨[], ⟨[], by simp, rfl⟩, by decide⟩, fun _ => by decide⟩, next_of_isSome (by decide +kernel)⟩
  have h : Inv (busyA 1 0 0 1 3) := busyA_inv (by decide) (by decide) (by decide)
  have hb := h.busy_regs rfl
  exact
    { cfg_wf := h.cfg_wf, mem_wf := h.mem_wf, mem_backed := h.mem_backed, idle_regs := h.idle_regs
      busy_regs := fun _ =>
        { ie_clear := hb.ie_clear, pinOe_set := hb.pinOe_set, cnt_pos := hb.cnt_pos, cnt_fits := hb.cnt_fits,
          led_lt := hb.led_lt, ph_lt := hb.ph_lt, buffer_fits := hb.buffer_fits, buffer_backed := hb.buffer_backed,
          sh_eq := hb.sh_eq }
      low_run_eq := by decide }

theorem witness_ConfigurationNeverChanges : ∃ t, step (busyA 1 0 0 0 0) = .next t :=
  next_of_isSome (by decide +kernel)

theorem witness_IllFormedConfigurationIsRefused :
    ¬ (State.resetWith (Cfg.ofCounts 125 1 10 6 3 639)).cfg.WF := by decide

/-- A `POKE` that changes memory; and a reset does for one of two memories, whatever the free contents are. -/
theorem witness_OnlyPokeAndResetWriteMemory :
    (∃ t, step (scripted (idleA 0) [.poke 0x101 7]) = .next t ∧ t.mem ≠ (scripted (idleA 0) [.poke 0x101 7]).mem) ∧
    ∃ m t, step { idleA 0 with mem := m, resets := [⟨0, []⟩] } = .next t ∧ t.mem ≠ m := by
  refine ⟨⟨_, rfl, by decide⟩, ?_⟩
  by_cases h : Memory.ofCells Cfg.refA (Config.memAtReset 0) = []
  · refine ⟨stripA, _, rfl, ?_⟩
    show Memory.ofCells Cfg.refA (Config.memAtReset 0) ≠ stripA
    rw [h]
    decide
  · exact ⟨[], _, rfl, h⟩

theorem witness_HostIsStalledWhileBusy :
    (busyA 1 0 0 0 0).regs.busy = true ∧ (∀ e es, (busyA 1 0 0 0 0).resets = e :: es → e.delay ≠ 0) ∧
    (∃ t, step (busyA 1 0 0 0 0) = .next t) ∧
    ∃ t, step { busyA 1 0 0 0 0 with resets := [⟨1, []⟩] } = .next t :=
  ⟨rfl, fun _ _ h => (by cases h), next_of_isSome (by decide +kernel), next_of_isSome (by decide +kernel)⟩

theorem witness_HandlersEnterOnlyWhenEnabledAndIdle :
    ∃ t, step { idleA 0 with handlers := [⟨0, [.cli]⟩] } = .next t ∧ t.handlers.length ≠ 1 := ⟨_, rfl, by decide⟩

theorem witness_HandlerEntersAtAnEnabledIdleBoundary :
    let s : State := { idleA 0 with handlers := [⟨0, [.cli]⟩], resets := [⟨1, []⟩] }
    s.cfg.WF ∧ s.port = none ∧ NoResetWithin 1 s ∧ s.regs.busy = false ∧ s.ie = true ∧
    s.handlers = ⟨0, [.cli]⟩ :: [] :=
  ⟨refA_wf, rfl, fun e he => (by cases he; exact le_rfl), rfl, rfl, rfl⟩

/-- A completion and a reported error, each delivered to a caller that had cleared `IE`. -/
theorem witness_InterruptsAreEnabledAfterEveryReturn :
    (∃ t, step (busyA 1 0 2 7 9) = .next t ∧ t.ret ≠ none) ∧
    ∃ t, step (scripted { idleA 0 with ie := false } [.transmit 0x100 1 2]) = .next t ∧ t.ret ≠ none :=
  ⟨⟨_, rfl, by decide⟩, _, rfl, by decide⟩

/-- For each of the five clauses a state with nothing waiting, one with a handler and an `rst` waiting, one with a handler
masked. -/
theorem witness_HostMovesHaveTheirEffect :
    ∀ m ∈ [HostMove.output, .input, .sei, .cli, .wait 0],
      let s := scripted (idleA 0) [m]
      s.cfg.WF ∧ Undisturbed 1 s ∧ Undisturbed 1 (waiting 1 s) ∧ Undisturbed 1 (masked s) ∧ s.regs.busy = false ∧
      s.script = m :: [] :=
  fun _ _ => ⟨refA_wf, quiet_undisturbed 1 rfl rfl rfl, waiting_undisturbed rfl, masked_undisturbed 1 rfl rfl, rfl, rfl⟩

theorem witness_AnEndedRunIsFinal :
    Inv (masked (idleA 0)) ∧ Undisturbed 1 (masked (idleA 0)) ∧ RunEnded (masked (idleA 0)) :=
  ⟨idleA_inv_with 0 _ _ _ _, masked_undisturbed 1 rfl rfl, rfl, rfl⟩

/-- The invariant holds too where a byte is not backed, if no listed byte is there. -/
theorem hole_inv (lines : List HostMove) : Inv { idleA 0 with cfg := holeA, script := lines } where
  cfg_wf := (by decide : holeA.WF)
  mem_wf := stripA_wf
  mem_backed := (by decide : ∀ x ∈ stripA, backed holeA x.1 = true)
  idle_regs := fun _ => rfl
  busy_regs := fun h => by cases h
  low_run_eq := rfl

/-- Each of the three clauses: the last address of the space, the first one beyond it, and one that no memory backs. -/
theorem witness_PokeStoresOneByte :
    (Inv (waiting 1 (scripted (idleA 0) [.poke 0xFFFF 1])) ∧ Undisturbed 1 (waiting 1 (scripted (idleA 0) [.poke 0xFFFF 1])) ∧
      (scripted (idleA 0) [.poke 0xFFFF 1]).regs.busy = false ∧ backed (idleA 0).cfg 0xFFFF = true) ∧
    (Inv (scripted (idleA 0) [.poke 0x10000 1]) ∧ 2 ^ (idleA 0).cfg.wAddr ≤ 0x10000) ∧
    (let s : State := { idleA 0 with cfg := holeA, script := [.poke 0x101 1] }
     Inv s ∧ Undisturbed 1 s ∧ s.regs.busy = false ∧ 0x101 < 2 ^ s.cfg.wAddr ∧ backed s.cfg 0x101 = false) :=
  ⟨⟨waiting_inv (idleA_inv_with 0 _ _ _ _), waiting_undisturbed rfl, rfl, by decide⟩,
    ⟨idleA_inv_with 0 _ _ _ _, by decide⟩, hole_inv _, quiet_undisturbed 1 rfl rfl rfl, rfl, by decide, by decide⟩

/-- A reset in the middle of a slot. -/
theorem witness_ResetAbandonsTheCommand :
    let s : State := { busyA 1 0 1 3 4 with resets := [⟨0, [.output]⟩] }
    s.cfg.WF ∧ s.resets = ⟨0, [.output]⟩ :: [] ∧ s.regs.busy = true := ⟨refA_wf, rfl, rfl⟩

end Sys2Proof.Tests
end

/-! PROOFS. The scope of the model (`00_scope.md`): the configuration that no step changes (R7), and its well-formedness
(R8, R9). -/

namespace Sys2Proof.Proofs

open Sys2Proof.Machine Sys2Proof.Laws

/-! ### The configuration through a step (R7) -/

theorem hostSideUnchanged_cfg {s t : State} (h : HostSideUnchanged s t) : t.cfg = s.cfg := h.1

/-- Every way `TRANSMIT` as a whole operation answers a next state: the error path (R93), the command of no Colors (R96),
or acceptance with the frame's bits sent after it (R90, R130). -/
theorem execTransmit_cases {s t : State} {base len count : Nat} (h : execTransmit base len count s = .next t) :
    Admitted s base len count ∧ (t = s.raiseInvalidArgument ∨ t = s.completeAtOnce ∨
      (0 < count ∧ count ≤ len ∧
        emitBits (frameBits (stripColor s.mem base) count)
          { s with
            ie := false, regs := regsAt s.mem base count 0 0, sent := [], reads := s.reads ++ [base] } = .next t)) := by
  obtain ⟨ha, ⟨-, rfl⟩ | ⟨-, -, rfl⟩ | ⟨hl, h0, hf⟩⟩ := command_eq_next h
  · exact ⟨ha, .inl rfl⟩
  · exact ⟨ha, .inr (.inl rfl)⟩
  · rw [accept_eq ha h0 hl, andThen_next, emitColors_eq, stripColors_bits] at hf
    exact ⟨ha, .inr (.inr ⟨h0, hl, hf⟩)⟩

theorem execTransmit_cfg {s t : State} {base len count : Nat} (h : execTransmit base len count s = .next t) :
    t.cfg = s.cfg := by
  obtain ⟨-, rfl | rfl | ⟨-, -, hf⟩⟩ := execTransmit_cases h
  · exact raiseInvalidArgument_cfg s
  · exact completeAtOnce_cfg s
  · exact hostSideUnchanged_cfg (emitBits_frame hf).1

theorem exec_cfg {i : Instr} {s t : State} (h : exec i s = .next t) : t.cfg = s.cfg := by
  by_cases hi : ∃ base len count, i = .transmit base len count
  · obtain ⟨base, len, count, rfl⟩ := hi
    exact execTransmit_cfg h
  · have hi' : ∀ base len count, i ≠ .transmit base len count := fun b l c he => hi ⟨b, l, c, he⟩
    obtain ⟨-, -, bs, hbs, -⟩ | ⟨-, m, -, rfl⟩ := exec_wire hi' h
    · exact hostSideUnchanged_cfg (emitBits_frame hbs).1
    · exact drive_cfg _ s

theorem issue_cfg {s t : State} {base len count : Nat} (h : issue base len count s = .next t) : t.cfg = s.cfg := by
  obtain ⟨-, rfl | rfl | ⟨-, -, rfl⟩⟩ := issue_cases h <;> rfl

theorem hostMove_cfg {s t : State} (h : hostMove s = .next t) : t.cfg = s.cfg := by
  obtain ⟨_, rfl⟩ | ⟨_, _, _, rfl⟩ | ⟨_, _, _, -, -, rfl⟩ | ⟨_, _, _, _, -, hi⟩ := hostMove_cases h
  · rfl
  · rfl
  · rfl
  · exact (issue_cfg hi :)

theorem idleMove_cfg {s t : State} (h : idleMove s = .next t) : t.cfg = s.cfg := by
  obtain ⟨_, _, -, -, -, rfl⟩ | ⟨_, -, hm⟩ := idleMove_cases h
  · rfl
  · exact (hostMove_cfg hm :)

theorem boundary_cfg {s t : State} (h : boundary s = .next t) : t.cfg = s.cfg := by
  obtain ⟨_, _, -, -, he⟩ | ⟨-, -, hb⟩ | ⟨-, -, hm⟩ := boundary_cases h
  · exact (exec_cfg he :)
  · exact hostSideUnchanged_cfg (busyTick_frame hb).1
  · exact idleMove_cfg hm

/-- Settles O43: a step is a reset that is due or a boundary, and neither the reset nor any agent that moves at the boundary
writes the configuration. -/
theorem configurationNeverChanges : Obligations.ConfigurationNeverChanges := by
  intro s t h
  obtain ⟨-, ⟨_, _, -, -, rfl⟩ | ⟨_, -, hb⟩⟩ := step_cases h
  · rfl
  · exact (boundary_cfg hb :)

/-! ### Well-formed configurations (R8) -/

/-- Settles O44: `step` tests the configuration before anything else. -/
theorem illFormedConfigurationIsRefused : Obligations.IllFormedConfigurationIsRefused := by
  intro s h
  rw [step, oneStep, if_neg h]

/-- R8, line 1: neither symbol is without a high or a low part, and the two differ. -/
theorem wf_order {c : Cfg} (h : c.WF) : 0 < c.n0H ∧ c.n0H < c.n1H ∧ c.n1H < c.nT := by
  obtain ⟨-, horder, -⟩ := h
  exact horder

/-- R8, line 2. -/
theorem wf_near_period {c : Cfg} (h : c.WF) : c.Near c.nT T_NS := by
  obtain ⟨-, -, hperiod, -⟩ := h
  exact hperiod

/-- R8, line 3. -/
theorem wf_near_highOfOne {c : Cfg} (h : c.WF) : c.Near c.n1H HI1_NS := by
  obtain ⟨-, -, -, hhigh, -⟩ := h
  exact hhigh

/-- R8, line 7. -/
theorem wf_latch {c : Cfg} (h : c.WF) : RESET_NS * c.tickDen ≤ c.nReset * c.tickNum := by
  obtain ⟨-, -, -, -, -, -, -, hlatch, -⟩ := h
  exact hlatch

/-- Settles O11: the five good rows by evaluation, each of the six bad rows (V19a to V19f) by the line of R8 that it
breaks. -/
theorem referenceConfigurationsAreWellFormed : Obligations.ReferenceConfigurationsAreWellFormed := by
  refine ⟨by decide, by decide, by decide, by decide, by decide, ?v19a, ?v19b, ?v19c, ?v19d, ?v19e, ?v19f⟩
  case v19a => exact fun h => absurd (wf_order h) (by decide)
  case v19b => exact fun h => absurd (wf_order h) (by decide)
  case v19c => exact fun h => absurd (wf_near_highOfOne h) (by decide)
  case v19d => exact fun h => absurd (wf_near_period h) (by decide)
  case v19e => exact fun h => absurd (wf_order h) (by decide)
  case v19f => exact fun h => absurd (wf_latch h) (by decide)

end Sys2Proof.Proofs

/-! PROOFS. The state (`10_state.md`): the state after reset (R38), the invariant that every step keeps (R33, R35, R36), and
the host that is stalled while the block is busy (R24, R91). -/

namespace Sys2Proof.Proofs

open Sys2Proof.Machine Sys2Proof.Laws

/-! ### What the invariant asks of an idle and of a busy block -/

/-- The invariant of a state whose block is idle: it asks nothing of `IE`, of `PIN_OE` or of what moves next (R33). -/
theorem inv_of_zero_regs {t : State} (hc : t.cfg.WF) (hm : Memory.wf t.mem = true)
    (hk : ∀ x ∈ t.mem, backed t.cfg x.1 = true) (hr : t.regs = Regs.zero) (hl : t.lowRun = lowRunAfter 0 t.trace) :
    Inv t where
  cfg_wf := hc
  mem_wf := hm
  mem_backed := hk
  idle_regs := fun _ => hr
  busy_regs := fun hb => by rw [hr] at hb; cases hb
  low_run_eq := hl

/-- At bit `n` and tick `ph` of a command whose buffer fits and is backed, the busy registers meet R36. -/
theorem busyInv_of_regsAt {t : State} {base count n ph : Nat} (hie : t.ie = false) (hoe : t.pinOe = true)
    (hr : t.regs = regsAt t.mem base count n ph) (hn : n < 24 * count) (hph : ph < t.cfg.nT)
    (hcount : count < 2 ^ t.cfg.wCount) (hfits : base + 3 * count ≤ 2 ^ t.cfg.wAddr)
    (hbacked : ∀ a, base ≤ a → a < base + 3 * count → backed t.cfg a = true) : BusyInv t where
  ie_clear := hie
  pinOe_set := hoe
  cnt_pos := by rw [hr, regsAt_cnt]; omega
  cnt_fits := by rwa [hr]
  led_lt := by rw [hr, regsAt_led, regsAt_cnt]; omega
  ph_lt := by rwa [hr]
  buffer_fits := by rwa [hr]
  buffer_backed := by rwa [hr]
  sh_eq := by rw [hr, regsAt_sh, regsAt_bas, regsAt_led, ← chanAddr_eq]; rfl

/-- The registers of a busy block are those of its flat bit index (R23, R137). -/
theorem regs_eq_regsAt {s : State} (h : Inv s) (hb : s.regs.busy = true) :
    s.regs = regsAt s.mem s.regs.bas s.regs.cnt s.regs.bitIndex s.regs.ph :=
  eq_regsAt hb (h.busy_regs hb).sh_eq

/-- A busy block is at a bit of its frame (R36). -/
theorem bitIndex_lt {s : State} (h : BusyInv s) : s.regs.bitIndex < 24 * s.regs.cnt := by
  have hled := h.led_lt
  have hch := s.regs.ch.isLt
  have hk := s.regs.k.isLt
  unfold Regs.bitIndex
  omega

/-- The invariant holds at every bit of the frame in progress and at every tick of its slot. -/
theorem inv_of_moved {s t : State} {n ph : Nat} (h : Inv s) (hb : s.regs.busy = true)
    (hcfg : t.cfg = s.cfg) (hmem : t.mem = s.mem) (hie : t.ie = s.ie) (hoe : t.pinOe = s.pinOe)
    (hr : t.regs = regsAt s.mem s.regs.bas s.regs.cnt n ph) (hn : n < 24 * s.regs.cnt) (hph : ph < s.cfg.nT)
    (hl : t.lowRun = lowRunAfter 0 t.trace) : Inv t :=
  have b := h.busy_regs hb
  { cfg_wf := hcfg ▸ h.cfg_wf
    mem_wf := hmem ▸ h.mem_wf
    mem_backed := by rw [hmem, hcfg]; exact h.mem_backed
    idle_regs := fun hi => by rw [hr] at hi; cases hi
    busy_regs := fun _ => busyInv_of_regsAt (hie.trans b.ie_clear) (hoe.trans b.pinOe_set) (hmem ▸ hr) hn (hcfg ▸ hph)
      (hcfg ▸ b.cnt_fits) (hcfg ▸ b.buffer_fits) (hcfg ▸ b.buffer_backed)
    low_run_eq := hl }

/-- Beside the block, `IE`, `PIN_OE`, memory and the configuration, the invariant reads only `low_run` against `trace`. -/
theorem inv_of_same_block {s t : State} (h : Inv s) (hcfg : t.cfg = s.cfg) (hmem : t.mem = s.mem) (hie : t.ie = s.ie)
    (hoe : t.pinOe = s.pinOe) (hr : t.regs = s.regs) (hl : t.lowRun = lowRunAfter 0 t.trace) : Inv t := by
  cases hb : s.regs.busy with
  | false =>
    exact inv_of_zero_regs (hcfg ▸ h.cfg_wf) (hmem ▸ h.mem_wf) (by rw [hmem, hcfg]; exact h.mem_backed)
      (hr.trans (h.idle_regs hb)) hl
  | true =>
    have b := h.busy_regs hb
    exact inv_of_moved h hb hcfg hmem hie hoe (hr.trans (regs_eq_regsAt h hb)) (bitIndex_lt b) b.ph_lt hl

/-- Who moves next, and what the ports hold, makes no difference to the invariant. -/
theorem inv_rescheduled {s : State} (h : Inv s) {port : Option OpWord} {ret : Option ResultCode}
    {script : List HostMove} {handlers : List Handler} {resets : List ResetEvent} :
    Inv { s with port := port, ret := ret, script := script, handlers := handlers, resets := resets } :=
  inv_of_same_block h rfl rfl rfl rfl rfl h.low_run_eq

/-! ### The pin, the sequencer and the steps of a frame keep the invariant -/

/-- Ticks on the pin keep `low_run` the number of zeros at the end of `trace` (R35). -/
theorem drive_lowRun_eq {s : State} (h : Inv s) (w : Trace) : (s.drive w).lowRun = lowRunAfter 0 (s.drive w).trace := by
  rw [drive_lowRun, drive_trace, lowRunAfter_append, h.low_run_eq]

theorem drive_keeps_inv {s : State} (h : Inv s) (w : Trace) : Inv (s.drive w) :=
  inv_of_same_block h rfl rfl rfl rfl rfl (drive_lowRun_eq h w)

/-- The end of a slot (R133) leads to the first tick of the next bit, or to the idle block (R134). -/
theorem slotEnd_keeps_inv {b : Bit} {s t : State} (hs : slotEnd b s = .next t) (h : Inv s) (hb : s.regs.busy = true) :
    Inv t := by
  have hbusy := h.busy_regs hb
  rw [slotEnd_at (regs_eq_regsAt h hb) (bitIndex_lt hbusy) hbusy.buffer_backed b] at hs
  split at hs <;> cases hs
  case isTrue hn => exact inv_of_moved h hb rfl rfl rfl rfl rfl hn (nT_pos h.cfg_wf) h.low_run_eq
  case isFalse => exact inv_of_zero_regs h.cfg_wf h.mem_wf h.mem_backed rfl h.low_run_eq

/-- A busy tick stays in its slot or ends it (R131, R133). -/
theorem busyTick_keeps_inv {s t : State} (ht : busyTick s = .next t) (h : Inv s) (hb : s.regs.busy = true) : Inv t := by
  unfold busyTick advance at ht
  split at ht
  case isTrue hph =>
    cases ht
    exact inv_of_moved h hb rfl rfl rfl rfl (congrArg (fun r : Regs => { r with ph := s.regs.ph + 1 }) (regs_eq_regsAt h hb))
      (bitIndex_lt (h.busy_regs hb)) hph (drive_lowRun_eq h _)
  case isFalse => exact slotEnd_keeps_inv ht (drive_keeps_inv h _) hb

/-- Bits sent from the start of a slot, at most to the end of the frame. -/
theorem emitBits_keeps_inv {bs : List Bit} {s t : State} (he : emitBits bs s = .next t) (h : Inv s)
    (hb : s.regs.busy = true) (hph : s.regs.ph = 0) (hlen : s.regs.bitIndex + bs.length ≤ 24 * s.regs.cnt) : Inv t := by
  have hbusy := h.busy_regs hb
  have hr := regs_eq_regsAt h hb
  rw [hph] at hr
  rw [emitBits_at bs hr (bitIndex_lt hbusy) hlen hbusy.buffer_backed] at he
  dsimp only at he
  split at he <;> cases he
  case isTrue hn => exact inv_of_moved h hb rfl rfl rfl rfl rfl hn (nT_pos h.cfg_wf) (drive_lowRun_eq h _)
  case isFalse => exact inv_of_zero_regs h.cfg_wf h.mem_wf h.mem_backed rfl (drive_lowRun_eq h _)

/-! ### Commands and operations keep the invariant -/

/-- What acceptance loads meets R36: the tests of R92 have found the buffer within the space and readable. -/
theorem inv_of_accepted {s : State} {base len count : Nat} (h : Inv s) (ha : Admitted s base len count)
    (h0 : 0 < count) (hl : count ≤ len) :
    Inv { s with ie := false, regs := regsAt s.mem base count 0 0, sent := [], reads := s.reads ++ [base] } := by
  have hbacked := backed_of_admitted ha hl
  obtain ⟨-, ⟨-, -, hcount⟩, hoe, hfits, -⟩ := ha
  have hspace : base + 3 * len ≤ 2 ^ s.cfg.wAddr := of_decide_eq_true hfits
  exact
    { cfg_wf := h.cfg_wf, mem_wf := h.mem_wf, mem_backed := h.mem_backed
      idle_regs := fun hi => by cases hi
      busy_regs := fun _ => busyInv_of_regsAt rfl hoe rfl (by omega) (nT_pos h.cfg_wf) hcount
        (by dsimp only; omega) hbacked
      low_run_eq := h.low_run_eq }

/-- A command that ends at once, by `ret(OK)` or by `InvalidArgument`, leaves the block idle (R93, R96). -/
theorem inv_of_zero_ticks {s : State} (h : Inv s) (hb : s.regs.busy = false) :
    Inv s.raiseInvalidArgument ∧ Inv s.completeAtOnce :=
  ⟨inv_of_zero_regs h.cfg_wf h.mem_wf h.mem_backed (h.idle_regs hb) h.low_run_eq,
    inv_of_zero_regs h.cfg_wf h.mem_wf h.mem_backed (h.idle_regs hb) h.low_run_eq⟩

theorem issue_keeps_inv {s t : State} {base len count : Nat} (hi : issue base len count s = .next t) (h : Inv s) :
    Inv t := by
  obtain ⟨ha, rfl | rfl | ⟨h0, hl, rfl⟩⟩ := issue_cases hi
  · exact (inv_of_zero_ticks h ha.1).1
  · exact (inv_of_zero_ticks h ha.1).2
  · exact inv_of_accepted h ha h0 hl

theorem execTransmit_keeps_inv {s t : State} {base len count : Nat}
    (he : execTransmit base len count s = .next t) (h : Inv s) : Inv t := by
  obtain ⟨ha, rfl | rfl | ⟨h0, hl, hbits⟩⟩ := execTransmit_cases he
  · exact (inv_of_zero_ticks h ha.1).1
  · exact (inv_of_zero_ticks h ha.1).2
  · exact emitBits_keeps_inv hbits (inv_of_accepted h ha h0 hl) rfl rfl (by simp [regsAt_bitIndex])

/-- The eight bits of a byte that is due are bits of the frame. -/
theorem byteDue_fits {s : State} {v : Byte} (h : Inv s) (hd : byteDue v s = true) :
    s.regs.bitIndex + 8 ≤ 24 * s.regs.cnt := by
  obtain ⟨hb, -, hk, -⟩ := byteDue_iff.1 hd
  have hled := (h.busy_regs hb).led_lt
  have hch := s.regs.ch.isLt
  simp only [Regs.bitIndex, hk, Fin.val_zero]
  omega

/-- The 24 bits of a Color that is due are bits of the frame. -/
theorem colorDue_fits {s : State} {c : Color} (h : Inv s) (hd : colorDue c s = true) :
    s.regs.bitIndex + 24 ≤ 24 * s.regs.cnt := by
  obtain ⟨hbyte, hch, -⟩ := colorDue_iff.1 hd
  obtain ⟨hb, -, hk, -⟩ := byteDue_iff.1 hbyte
  have hled := (h.busy_regs hb).led_lt
  simp only [Regs.bitIndex, hk, hch, Fin.val_zero]
  omega

theorem exec_keeps_inv {i : Instr} {s t : State} (he : exec i s = .next t) (h : Inv s) : Inv t := by
  by_cases hi : ∃ base len count, i = .transmit base len count
  · obtain ⟨base, len, count, rfl⟩ := hi
    exact execTransmit_keeps_inv he h
  · have hi' : ∀ base len count, i ≠ .transmit base len count := fun b l c he => hi ⟨b, l, c, he⟩
    obtain ⟨hb, hph, bs, hbs, hdue⟩ | ⟨-, m, -, rfl⟩ := exec_wire hi' he
    · refine emitBits_keeps_inv hbs h hb hph ?_
      have hlt := bitIndex_lt (h.busy_regs hb)
      obtain ⟨-, rfl, -⟩ | ⟨-, rfl, -⟩ | ⟨v, -, rfl, hd⟩ | ⟨c, -, rfl, hd⟩ := hdue
      · exact hlt
      · exact hlt
      · rw [byteBits_length]; exact byteDue_fits h hd
      · rw [colorBits_length]; exact colorDue_fits h hd
    · exact drive_keeps_inv h _

/-! ### The host and the interrupt environment keep the invariant -/

/-- A host move of the idle block: only a `POKE` writes memory, and only at a backed address (R50, R83). -/
theorem hostMove_keeps_inv {s t : State} (hm : hostMove s = .next t) (h : Inv s) (hb : s.regs.busy = false) : Inv t := by
  have hr := h.idle_regs hb
  obtain ⟨_, rfl⟩ | ⟨_, _, _, rfl⟩ | ⟨a, v, _, -, ha, rfl⟩ | ⟨_, _, _, _, -, hi⟩ := hostMove_cases hm
  · exact inv_of_same_block h rfl rfl rfl rfl rfl (drive_lowRun_eq h _)
  · exact inv_of_zero_regs h.cfg_wf h.mem_wf h.mem_backed hr h.low_run_eq
  · refine inv_of_zero_regs h.cfg_wf (write_wf h.mem_wf a v) (fun x hx => ?_) hr h.low_run_eq
    obtain hx | rfl := mem_write hx
    · exact h.mem_backed x hx
    · exact ha
  · exact issue_keeps_inv hi (inv_rescheduled h)

theorem idleMove_keeps_inv {s t : State} (hm : idleMove s = .next t) (h : Inv s) (hb : s.regs.busy = false) : Inv t := by
  obtain ⟨_, _, -, -, -, rfl⟩ | ⟨_, -, hm⟩ := idleMove_cases hm
  · exact inv_rescheduled h
  · exact hostMove_keeps_inv hm (inv_rescheduled h) hb

theorem boundary_keeps_inv {s t : State} (hs : boundary s = .next t) (h : Inv s) : Inv t := by
  obtain ⟨_, _, -, -, he⟩ | ⟨-, hb, ht⟩ | ⟨-, hb, hm⟩ := boundary_cases hs
  · exact exec_keeps_inv he (inv_rescheduled h)
  · exact busyTick_keeps_inv ht h hb
  · exact idleMove_keeps_inv hm h hb

/-- The system's reset leaves the block idle, and only backed cells of the free contents in memory (R180 to R182). -/
theorem systemReset_inv {s : State} (hc : s.cfg.WF) (e : ResetEvent) : Inv (s.systemReset e) :=
  have ⟨hwf, hbacked⟩ := ofCells_spec s.cfg (Config.memAtReset s.fresh)
  inv_of_zero_regs hc hwf hbacked rfl rfl

/-- Settles O41: a step is a reset that is due, which makes the invariant hold, or a boundary, where whoever moves keeps
it. -/
theorem everyStepKeepsTheInvariant : Obligations.EveryStepKeepsTheInvariant := by
  intro s t h hs
  obtain ⟨hc, ⟨e, es, -, -, rfl⟩ | ⟨rs, -, hb⟩⟩ := step_cases hs
  · exact systemReset_inv (s := { s with resets := es }) hc e
  · exact boundary_keeps_inv hb (inv_rescheduled h)

/-! ### The host is stalled while the block is busy (R24, R91) -/

theorem execTransmit_hostSideUnchanged {s t : State} {base len count : Nat} (h : execTransmit base len count s = .next t) :
    HostSideUnchanged s t := by
  obtain ⟨-, rfl | rfl | ⟨-, -, hbits⟩⟩ := execTransmit_cases h
  · simp [HostSideUnchanged]
  · simp [HostSideUnchanged]
  · exact (emitBits_frame hbits).1

/-- No operation changes anything of the host's side, of the inputs or of memory (R54, R91). -/
theorem exec_hostSideUnchanged {i : Instr} {s t : State} (h : exec i s = .next t) : HostSideUnchanged s t := by
  by_cases hi : ∃ base len count, i = .transmit base len count
  · obtain ⟨base, len, count, rfl⟩ := hi
    exact execTransmit_hostSideUnchanged h
  · have hi' : ∀ base len count, i ≠ .transmit base len count := fun b l c he => hi ⟨b, l, c, he⟩
    obtain ⟨-, -, bs, hbs, -⟩ | ⟨-, m, -, rfl⟩ := exec_wire hi' h
    · exact (emitBits_frame hbs).1
    · simp [HostSideUnchanged]

/-- Settles O46: with no reset due, a busy block leaves the boundary to a word on the port or to the sequencer's tick. -/
theorem hostIsStalledWhileBusy : Obligations.HostIsStalledWhileBusy := by
  intro s t hbusy hreset h
  obtain ⟨-, ⟨e, es, hr, hd, -⟩ | ⟨rs, -, hb⟩⟩ := step_cases h
  · exact absurd hd (hreset e es hr)
  obtain ⟨_, _, -, -, he⟩ | ⟨-, -, ht⟩ | ⟨-, hidle, -⟩ := boundary_cases hb
  · obtain ⟨-, hoe, hmem, -, hscript, hhandlers, -⟩ := exec_hostSideUnchanged he
    exact ⟨hscript, hoe, hmem, hhandlers⟩
  · obtain ⟨-, hoe, hmem, -, hscript, hhandlers, -⟩ := (busyTick_frame ht).1
    exact ⟨hscript, hoe, hmem, hhandlers⟩
  · rw [hbusy] at hidle
    cases hidle

/-! ### The state after reset (R38) -/

/-- The invariants after reset: the block idle, memory empty, nothing on the line. -/
theorem resetWith_inv {c : Cfg} (hc : c.WF) : Inv (State.resetWith c) ∧ LineInv (State.resetWith c) :=
  ⟨inv_of_zero_regs hc rfl (by simp) rfl rfl, ⟨[], ⟨[], by simp, rfl⟩, rfl⟩, fun hb => by cases hb⟩

/-- Settles O40: reset is reset under the reference instantiation A, which is well formed. -/
theorem invariantHoldsAtReset : Obligations.InvariantHoldsAtReset := by
  obtain ⟨hA, -⟩ := referenceConfigurationsAreWellFormed
  obtain ⟨hinv, hline⟩ := resetWith_inv hA
  exact ⟨hinv, hline, fun c hc => resetWith_inv hc⟩

/-- The pin of an idle block is low (R30). -/
theorem pin_of_idle {s : State} (hb : s.regs.busy = false) : s.pin = false := by
  simp [State.pin, hb]

/-- Settles O54: the values that `State.resetWith` gives. -/
theorem resetStateIsAsTheSpecSays : Obligations.ResetStateIsAsTheSpecSays :=
  have hr : State.reset.regs = Regs.zero := resetWith_regs _
  ⟨zero_busy, hr, pin_of_idle (hr ▸ zero_busy), resetWith_pinOe _, resetWith_port _, resetWith_ret _, resetWith_trace _,
    resetWith_lowRun _, resetWith_sent _⟩

end Sys2Proof.Proofs

/-! PROOFS. The memory (`20_memory.md`): the bytes a command reads (R56), and who writes memory (R54). -/

namespace Sys2Proof.Proofs

open Sys2Proof.Machine Sys2Proof.Laws

/-! ### The reads of a command (R56) -/

/-- The byte read at acceptance and the bytes read on the way through the frame are the buffer, in ascending order. -/
theorem reads_of_whole_frame {base count : Nat} (h0 : 0 < count) :
    base :: readsBetween base count 0 (24 * count) = (List.range (3 * count)).map (base + ·) := by
  obtain ⟨n, hn⟩ : ∃ n, 3 * count = n + 1 := ⟨3 * count - 1, by omega⟩
  have hlast : min (0 + 24 * count) (24 * count - 1) / 8 - 0 / 8 = n := by omega
  rw [readsBetween, hlast, hn, List.range_succ_eq_map, List.map_cons, List.map_map]
  congr 1
  exact List.map_congr_left fun j _ => by simp only [Function.comp_apply]; omega

/-- The ordinary path of `TRANSMIT` as a whole operation: the wave on the pin, the buffer read once, and completion (R90, R94,
R134). -/
theorem execTransmit_of_admitted {s : State} {base len count : Nat} (ha : Admitted s base len count) (h0 : 0 < count)
    (hl : count ≤ len) :
    execTransmit base len count s =
      .next { s.drive (wave s.cfg (stripColor s.mem base) count) with
        sent := frameBits (stripColor s.mem base) count
        reads := s.reads ++ (List.range (3 * count)).map (base + ·) }.complete := by
  have hlen := frameBits_length (stripColor s.mem base) count
  rw [execTransmit, command_of_admitted ha, if_neg (by omega), if_neg (by omega), accept_eq ha h0 hl, andThen_next,
    emitColors_eq, stripColors_bits]
  refine (emitBits_at (n := 0) (frameBits (stripColor s.mem base) count) rfl (by omega) (by omega) ?hbacked).trans ?_
  case hbacked => exact (backed_of_admitted ha hl :)
  simp [← reads_of_whole_frame h0, wave, State.drive, State.complete, State.unmask, State.deliver]

/-- Settles O17: a command ends at once, with nothing read, or sends the whole frame, whose reads are the buffer. -/
theorem transmitReadsTheBufferOnceInOrder : Obligations.TransmitReadsTheBufferOnceInOrder := by
  intro s t base len count h
  have he : execTransmit base len count s = .next t := h
  obtain ⟨ha, ⟨hgt, rfl⟩ | ⟨-, rfl, rfl⟩ | ⟨hl, h0, -⟩⟩ := command_eq_next he
  · rw [if_neg (by omega), List.append_nil, raiseInvalidArgument_reads]
  · simp
  · rw [execTransmit_of_admitted ha h0 hl] at he
    cases he
    rw [if_pos hl, complete_reads]

/-! ### Who writes memory (R54, R83) -/

theorem issue_mem {s t : State} {base len count : Nat} (h : issue base len count s = .next t) : t.mem = s.mem := by
  obtain ⟨-, rfl | rfl | ⟨-, -, rfl⟩⟩ := issue_cases h
  · exact raiseInvalidArgument_mem s
  · exact completeAtOnce_mem s
  · rfl

/-- Of the host's moves only `POKE` writes memory, and only its one byte (R83). -/
theorem hostMove_mem {s t : State} (h : hostMove s = .next t) :
    t.mem = s.mem ∨ ∃ a v rest, s.script = .poke a v :: rest ∧ t.mem = s.mem.write a v := by
  obtain ⟨_, rfl⟩ | ⟨_, _, _, rfl⟩ | ⟨a, v, rest, hs, -, rfl⟩ | ⟨_, _, _, _, -, hi⟩ := hostMove_cases h
  · exact .inl rfl
  · exact .inl rfl
  · exact .inr ⟨a, v, rest, hs, rfl⟩
  · exact .inl (issue_mem hi :)

theorem idleMove_mem {s t : State} (h : idleMove s = .next t) :
    t.mem = s.mem ∨ ∃ a v rest, s.script = .poke a v :: rest ∧ t.mem = s.mem.write a v := by
  obtain ⟨_, _, -, -, -, rfl⟩ | ⟨_, -, hm⟩ := idleMove_cases h
  · exact .inl rfl
  · exact (hostMove_mem hm :)

/-- At a boundary neither an operation nor the sequencer writes memory (R54): what does is a `POKE` to the idle block. -/
theorem boundary_mem {s t : State} (h : boundary s = .next t) :
    t.mem = s.mem ∨ (s.port = none ∧ s.regs.busy = false ∧
      ∃ a v rest, s.script = .poke a v :: rest ∧ t.mem = s.mem.write a v) := by
  obtain ⟨_, _, -, -, he⟩ | ⟨-, -, ht⟩ | ⟨hp, hb, hm⟩ := boundary_cases h
  · obtain ⟨-, -, hmem, -⟩ := exec_hostSideUnchanged he
    exact .inl hmem
  · obtain ⟨-, -, hmem, -⟩ := (busyTick_frame ht).1
    exact .inl hmem
  · exact (idleMove_mem hm).imp_right fun hpoke => ⟨hp, hb, hpoke⟩

/-- Settles O45: a step is a reset that is due or a boundary, where memory changes by a `POKE` alone. -/
theorem onlyPokeAndResetWriteMemory : Obligations.OnlyPokeAndResetWriteMemory := by
  intro s t h hne
  obtain ⟨-, ⟨e, es, hr, hd, -⟩ | ⟨_, -, hb⟩⟩ := step_cases h
  · exact .inr ⟨e, es, hr, hd⟩
  · obtain hsame | ⟨hp, hidle, a, v, rest, hs, hw⟩ := boundary_mem hb
    · exact absurd hsame hne
    · exact .inl ⟨a, v, rest, hs, hidle, hp, hw, fun a' ha' => hw ▸ read_write_other ha' v⟩

end Sys2Proof.Proofs

/-! PROOFS. The encodings (`30_encoding.md`): the decoder format by format, and that it and the encoder invert each other
(R70 to R82); what an operation answers where it is not due (R79); how a step comes to run a word. -/

namespace Sys2Proof.Proofs

open Sys2Proof.Machine Sys2Proof.Laws

/-! ### The decoder, format by format -/

/-- Every word of the command's width decodes (R80). -/
theorem decode_cmd {c : Cfg} {bits : Nat} (h : bits < 2 ^ cmdWidth c) :
    decode c ⟨.cmd, cmdWidth c, bits⟩ = .ok (decodeCmd c bits) := by
  simp [decode, h]

theorem decode_color24 (c : Cfg) {bits : Nat} (h : bits < 2 ^ 24) :
    decode c ⟨.color24, 24, bits⟩ = .ok (decodeColor bits) := by
  rw [decode, if_neg (Nat.not_le.2 h)]
  rfl

theorem decode_channel8 (c : Cfg) {bits : Nat} (h : bits < 2 ^ 8) :
    decode c ⟨.channel8, 8, bits⟩ = .ok (.emitByte (BitVec.ofNat 8 bits)) := by
  rw [decode, if_neg (Nat.not_le.2 h)]
  rfl

theorem decode_sym {c : Cfg} {bits : Nat} (h : bits < 2 ^ c.nT) : decode c ⟨.sym, c.nT, bits⟩ = decodeSym c bits := by
  simp [decode, h]

/-- A run of `m` low ticks is a `LATCH`, if it is long enough (R78). -/
theorem decode_idle (c : Cfg) (m : Nat) :
    decode c ⟨.idle, m, 0⟩ = if m < c.nReset then .error .tooShortForLatch else .ok (.latch m) := by
  simp [decode]

/-- Every way a word can decode: which format's word it is, and what it stands for. -/
theorem decode_eq_ok {c : Cfg} {w : OpWord} {i : Instr} (h : decode c w = .ok i) :
    (∃ bits, w = ⟨.cmd, cmdWidth c, bits⟩ ∧ bits < 2 ^ cmdWidth c ∧ i = decodeCmd c bits) ∨
    (∃ bits, w = ⟨.color24, 24, bits⟩ ∧ bits < 2 ^ 24 ∧ i = decodeColor bits) ∨
    (∃ bits, w = ⟨.channel8, 8, bits⟩ ∧ bits < 2 ^ 8 ∧ i = .emitByte (BitVec.ofNat 8 bits)) ∨
    (w = ⟨.sym, c.nT, symValue c true⟩ ∧ i = .bit1) ∨
    (w = ⟨.sym, c.nT, symValue c false⟩ ∧ i = .bit0) ∨
    (∃ m, w = ⟨.idle, m, 0⟩ ∧ c.nReset ≤ m ∧ i = .latch m) := by
  obtain ⟨format, width, bits⟩ := w
  unfold decode at h
  split at h
  · cases h
  rename_i hfit
  simp only [Nat.not_le] at hfit
  cases format <;> simp only at h <;> split at h
  case cmd.isTrue hw =>
    subst hw
    cases h
    exact .inl ⟨bits, rfl, hfit, rfl⟩
  case color24.isTrue hw =>
    subst hw
    cases h
    exact .inr (.inl ⟨bits, rfl, hfit, rfl⟩)
  case channel8.isTrue hw =>
    subst hw
    cases h
    exact .inr (.inr (.inl ⟨bits, rfl, hfit, rfl⟩))
  case sym.isTrue hw =>
    subst hw
    unfold decodeSym at h
    split at h
    case isTrue hb => cases h; exact .inr (.inr (.inr (.inl ⟨hb ▸ rfl, rfl⟩)))
    split at h
    case isTrue hb => cases h; exact .inr (.inr (.inr (.inr (.inl ⟨hb ▸ rfl, rfl⟩))))
    case isFalse => cases h
  case idle.isFalse hb =>
    split at h
    case isTrue => cases h
    case isFalse hm =>
      cases h
      exact .inr (.inr (.inr (.inr (.inr ⟨width, by rw [not_not.1 hb], Nat.not_lt.1 hm, rfl⟩))))
  all_goals cases h

/-! ### The fields of a command word (R70) and of a Color (R72) -/

/-- Operands that fit are read back from the word they are packed into. -/
theorem decodeCmd_of_operandsFit {c : Cfg} {base len count : Nat} (h : c.OperandsFit base len count) :
    decodeCmd c (count * 2 ^ (c.wAddr + c.wCount) + len * 2 ^ c.wAddr + base) = .transmit base len count := by
  obtain ⟨hbase, hlen, hcount⟩ := h
  have hbits : count * 2 ^ (c.wAddr + c.wCount) + len * 2 ^ c.wAddr + base =
      2 ^ c.wAddr * (2 ^ c.wCount * count + len) + base := by rw [pow_add]; ring
  have hfield : (2 ^ c.wAddr * (2 ^ c.wCount * count + len) + base) / 2 ^ c.wAddr = 2 ^ c.wCount * count + len := by
    rw [Nat.mul_add_div (Nat.two_pow_pos _), Nat.div_eq_of_lt hbase, Nat.add_zero]
  rw [hbits, decodeCmd, pow_add, ← Nat.div_div_eq_div_mul, hfield, Nat.mul_add_mod, Nat.mul_add_mod,
    Nat.mul_add_div (Nat.two_pow_pos _), Nat.div_eq_of_lt hlen, Nat.add_zero, Nat.mod_eq_of_lt hbase,
    Nat.mod_eq_of_lt hlen, Nat.mod_eq_of_lt hcount]

/-- The three fields of a command word make it up. -/
theorem cmd_fields {c : Cfg} {bits : Nat} (h : bits < 2 ^ cmdWidth c) :
    bits / 2 ^ (c.wAddr + c.wCount) % 2 ^ c.wCount * 2 ^ (c.wAddr + c.wCount) +
      bits / 2 ^ c.wAddr % 2 ^ c.wCount * 2 ^ c.wAddr + bits % 2 ^ c.wAddr = bits := by
  have hcount : bits / 2 ^ c.wAddr / 2 ^ c.wCount < 2 ^ c.wCount := by
    rw [Nat.div_div_eq_div_mul]
    refine Nat.div_lt_of_lt_mul ?_
    rwa [mul_assoc, ← pow_cmdWidth]
  have hlow := Nat.div_add_mod bits (2 ^ c.wAddr)
  have hhigh := Nat.div_add_mod (bits / 2 ^ c.wAddr) (2 ^ c.wCount)
  rw [pow_add, ← Nat.div_div_eq_div_mul, Nat.mod_eq_of_lt hcount]
  calc _ = 2 ^ c.wAddr * (2 ^ c.wCount * (bits / 2 ^ c.wAddr / 2 ^ c.wCount) + bits / 2 ^ c.wAddr % 2 ^ c.wCount) +
        bits % 2 ^ c.wAddr := by ring
    _ = bits := by rw [hhigh, hlow]

theorem cmd_fields_fit (c : Cfg) (bits : Nat) :
    c.OperandsFit (bits % 2 ^ c.wAddr) (bits / 2 ^ c.wAddr % 2 ^ c.wCount)
      (bits / 2 ^ (c.wAddr + c.wCount) % 2 ^ c.wCount) :=
  ⟨Nat.mod_lt _ (Nat.two_pow_pos _), Nat.mod_lt _ (Nat.two_pow_pos _), Nat.mod_lt _ (Nat.two_pow_pos _)⟩

theorem encode_decodeCmd {c : Cfg} {bits : Nat} (h : bits < 2 ^ cmdWidth c) :
    encode c (decodeCmd c bits) = ⟨.cmd, cmdWidth c, bits⟩ := by
  simp only [decodeCmd, encode, cmd_fields h]

/-- The channels of a Color are read back from the word they are packed into. -/
theorem decodeColor_of_channels (k : Color) :
    decodeColor (k.red.toNat * 65536 + k.green.toNat * 256 + k.blue.toNat) = .emitColor k := by
  obtain ⟨red, green, blue⟩ := k
  have hred := red.isLt
  have hgreen := green.isLt
  have hblue := blue.isLt
  simp only [decodeColor, Instr.emitColor.injEq, Color.mk.injEq]
  refine ⟨?_, ?_, ?_⟩ <;> refine BitVec.eq_of_toNat_eq ?_ <;> rw [BitVec.toNat_ofNat] <;> omega

theorem encode_decodeColor (c : Cfg) {bits : Nat} (h : bits < 2 ^ 24) :
    encode c (decodeColor bits) = ⟨.color24, 24, bits⟩ := by
  simp only [decodeColor, encode, BitVec.toNat_ofNat, OpWord.mk.injEq, true_and]
  omega

/-! ### Decoder and encoder invert each other -/

/-- Settles O1: by the instruction's constructor, each with its format's word. -/
theorem decodeOfEncodeIsTheInstruction : Obligations.DecodeOfEncodeIsTheInstruction := by
  intro c i hc hi
  cases i with
  | transmit base len count =>
    have hfit : c.OperandsFit base len count := of_decide_eq_true hi
    exact (decode_cmd (WordFits.transmit base len count c hc hi)).trans (congrArg _ (decodeCmd_of_operandsFit hfit))
  | emitColor k =>
    exact (decode_color24 c (WordFits.emitColor k c hc hi)).trans (congrArg _ (decodeColor_of_channels k))
  | emitByte v =>
    refine (decode_channel8 c v.isLt).trans ?_
    rw [BitVec.ofNat_toNat, BitVec.setWidth_eq]
  | bit1 =>
    refine (decode_sym (symValue_lt hc true)).trans ?_
    rw [decodeSym, if_pos rfl]
  | bit0 =>
    refine (decode_sym (symValue_lt hc false)).trans ?_
    rw [decodeSym, if_neg (symValue_ne hc).symm, if_pos rfl]
  | latch m =>
    have hm : c.nReset ≤ m := of_decide_eq_true hi
    exact (decode_idle c m).trans (if_neg (Nat.not_lt.2 hm))

/-- Settles O2: by the ways a word can decode. -/
theorem encodeOfDecodeIsTheWord : Obligations.EncodeOfDecodeIsTheWord := by
  intro c w i h
  obtain ⟨bits, rfl, hbits, rfl⟩ | ⟨bits, rfl, hbits, rfl⟩ | ⟨bits, rfl, hbits, rfl⟩ | ⟨rfl, rfl⟩ | ⟨rfl, rfl⟩ |
    ⟨m, rfl, hm, rfl⟩ := decode_eq_ok h
  · exact ⟨encode_decodeCmd hbits, decide_eq_true (cmd_fields_fit c bits)⟩
  · exact ⟨encode_decodeColor c hbits, rfl⟩
  · exact ⟨by rw [encode, BitVec.toNat_ofNat, Nat.mod_eq_of_lt hbits], rfl⟩
  · exact ⟨rfl, rfl⟩
  · exact ⟨rfl, rfl⟩
  · exact ⟨rfl, decide_eq_true hm⟩

/-- Settles O3: the operands are the three fields of the word. -/
theorem everyCommandWordDecodes : Obligations.EveryCommandWordDecodes := fun c bits h =>
  ⟨_, _, _, cmd_fields_fit c bits, (cmd_fields (c := c) h).symm, decode_cmd (c := c) h⟩

/-- Settles O4: by evaluation; the low runs by the decoder's test of their length. -/
theorem wordsOfTheSpecDecode : Obligations.WordsOfTheSpecDecode :=
  ⟨rfl, rfl, rfl, rfl, rfl, rfl, rfl, rfl, decode_idle Cfg.refA 640, rfl, decode_idle Cfg.refA 639⟩

/-- Settles O5: the head is what both symbols have high (R75), the data part what only a 1 has high (R76, R77). -/
theorem slotHasHeadDataTail : Obligations.SlotHasHeadDataTail := by
  intro c d hc
  obtain ⟨-, h01, h1T⟩ := wf_order hc
  refine ⟨?_, sym_length hc d⟩
  cases d with
  | true =>
    rw [List.replicate_append_replicate, Nat.add_sub_cancel' h01.le]
    rfl
  | false =>
    rw [List.append_assoc, List.replicate_append_replicate, show c.n1H - c.n0H + (c.nT - c.n1H) = c.nT - c.n0H by omega]
    rfl

/-! ### Where an operation is not due (R79, R91, R28) -/

theorem exec_bit1_of_not_due {s : State} (h : bitDue true s = false) : exec .bit1 s = .refused .stepNotDue :=
  if_neg (by rw [h]; decide)

theorem exec_bit0_of_not_due {s : State} (h : bitDue false s = false) : exec .bit0 s = .refused .stepNotDue :=
  if_neg (by rw [h]; decide)

theorem exec_emitByte_of_not_due {s : State} {v : Byte} (h : byteDue v s = false) :
    exec (.emitByte v) s = .refused .stepNotDue :=
  if_neg (by rw [h]; decide)

theorem exec_emitColor_of_not_due {s : State} {c : Color} (h : colorDue c s = false) :
    exec (.emitColor c) s = .refused .stepNotDue :=
  if_neg (by rw [h]; decide)

/-- With the block idle no bit, no byte and no Color is due. -/
theorem not_due_of_idle {s : State} (h : s.regs.busy = false) (b : Bit) (v : Byte) (c : Color) :
    bitDue b s = false ∧ byteDue v s = false ∧ colorDue c s = false := by
  simp [bitDue, byteDue, colorDue, h]

/-- Settles O26: an idle block has no step due. -/
theorem frameStepsExistOnlyInsideACommand : Obligations.FrameStepsExistOnlyInsideACommand := by
  intro s c v h
  obtain ⟨hbit1, hbyte, hcolor⟩ := not_due_of_idle h true v c
  obtain ⟨hbit0, -, -⟩ := not_due_of_idle h false v c
  exact ⟨exec_emitColor_of_not_due hcolor, exec_emitByte_of_not_due hbyte, exec_bit1_of_not_due hbit1,
    exec_bit0_of_not_due hbit0⟩

theorem exec_transmit_of_busy {s : State} (h : s.regs.busy = true) (base len count : Nat) :
    exec (.transmit base len count) s = .refused .commandWhileBusy := by
  rw [exec, execTransmit, command, if_pos h]

theorem exec_transmit_of_wide_operand {s : State} {base len count : Nat} (h : s.regs.busy = false)
    (hw : ¬ s.cfg.OperandsFit base len count) : exec (.transmit base len count) s = .refused .operandTooWide := by
  rw [exec, execTransmit, command, if_neg (by simp [h]), if_pos hw]

theorem exec_latch_of_busy {s : State} (h : s.regs.busy = true) (m : Nat) : exec (.latch m) s = .refused .lineInUse :=
  if_pos h

/-- Settles O27: each operation's own test. -/
theorem whatIsNotDueIsRefusedByName : Obligations.WhatIsNotDueIsRefusedByName := fun _ _ _ m base len count =>
  ⟨exec_bit1_of_not_due, exec_bit0_of_not_due, exec_emitByte_of_not_due, exec_emitColor_of_not_due,
    fun hb => ⟨exec_latch_of_busy hb m, exec_transmit_of_busy hb base len count⟩, exec_transmit_of_wide_operand⟩

/-! ### A word on the port (log 5) -/

theorem boundary_of_word {s : State} {w : OpWord} (h : s.port = some w) :
    boundary s = runWord w { s with port := none } := by
  simp only [boundary, h]

theorem runWord_of_ok {s : State} {w : OpWord} {i : Instr} (h : decode s.cfg w = .ok i) : runWord w s = exec i s := by
  simp only [runWord, h]

theorem runWord_of_error {s : State} {w : OpWord} {e : DecodeError} (h : decode s.cfg w = .error e) :
    runWord w s = .refused (.illegalWord e) := by
  simp only [runWord, h]

/-- Settles O29: with no reset due the step is the boundary, and the boundary runs the word. -/
theorem stepRunsTheDecodedWord : Obligations.StepRunsTheDecodedWord := by
  intro s w hc hr hp
  have hstep : step s = runWord w { s with port := none, ret := none, resets := resetsAfter 1 s.resets } :=
    (step_of_no_reset hc hr).trans (boundary_of_word hp)
  exact ⟨fun i hi => hstep.trans (runWord_of_ok hi), fun e he => hstep.trans (runWord_of_error he)⟩

end Sys2Proof.Proofs

/-! PROOFS. The line (R74, R81, R94, R137): every step keeps it made of low ticks, whole frames, and the beginning of the
frame in progress. -/

namespace Sys2Proof.Proofs

open Sys2Proof.Machine Sys2Proof.Laws

/-! ### Traces made of low ticks and whole frames -/

theorem wholeFrames_append {c : Cfg} {v w : Trace} (hv : WholeFrames c v) (hw : WholeFrames c w) :
    WholeFrames c (v ++ w) := by
  obtain ⟨vs, hvs, rfl⟩ := hv
  obtain ⟨ws, hws, rfl⟩ := hw
  exact ⟨vs ++ ws, fun x hx => (List.mem_append.1 hx).elim (hvs x) (hws x), List.flatten_append.symm⟩

theorem wholeFrames_nil (c : Cfg) : WholeFrames c [] := ⟨[], by simp, rfl⟩

theorem wholeFrames_wave (c : Cfg) (strip : Nat → Color) (count : Nat) : WholeFrames c (wave c strip count) :=
  ⟨[wave c strip count], fun _ hx => .inr ⟨strip, count, List.mem_singleton.1 hx⟩, by simp⟩

theorem wholeFrames_low (c : Cfg) (m : Nat) : WholeFrames c (List.replicate m false) :=
  ⟨List.replicate m [false], fun _ hx => .inl (List.eq_of_mem_replicate hx), by simp⟩

/-! ### The first bits of a frame -/

/-- The first `n` bits of the frame of `strip` (R74). -/
def firstBits (strip : Nat → Color) (n : Nat) : List Bit := (List.range n).map (frameBit strip)

/-- All the bits of a frame of `count` Colors are its bit list. -/
theorem firstBits_all (strip : Nat → Color) (count : Nat) : firstBits strip (24 * count) = frameBits strip count := rfl

theorem firstBits_add (strip : Nat → Color) (n m : Nat) :
    firstBits strip (n + m) = firstBits strip n ++ (List.range m).map (fun j => frameBit strip (n + j)) := by
  rw [firstBits, List.range_add, List.map_append, List.map_map]
  rfl

theorem firstBits_succ (strip : Nat → Color) (n : Nat) :
    firstBits strip (n + 1) = firstBits strip n ++ [frameBit strip n] := firstBits_add strip n 1

/-- A bit of the frame is a bit of its byte in the buffer (R51, R74). -/
theorem frameBit_eq_read (m : Memory) (base n : Nat) :
    frameBit (stripColor m base) n = (m.read (base + n / 8)).getLsbD (7 - n % 8) :=
  (regsAt_curBit m base 0 n 0).symm

/-- The bits of a byte of the buffer are eight bits of the frame (R73, R74). -/
theorem byteBits_read (m : Memory) (base : Nat) {n : Nat} (hn : n % 8 = 0) :
    byteBits (m.read (base + n / 8)) = (List.range 8).map (fun j => frameBit (stripColor m base) (n + j)) := by
  refine List.map_congr_left fun j hj => ?_
  have hj' : j < 8 := List.mem_range.1 hj
  rw [frameBit_eq_read, show (n + j) / 8 = n / 8 by omega, show (n + j) % 8 = j by omega]

/-! ### The line invariant of an idle and of a busy block -/

/-- With the block idle the invariant asks of the line alone: no frame is in progress. -/
theorem lineInv_of_idle {t : State} (hb : t.regs.busy = false) (hw : WholeFrames t.cfg t.trace) : LineInv t :=
  ⟨⟨t.trace, hw, by simp [frameSoFar, hb]⟩, fun hbusy => by rw [hb] at hbusy; cases hbusy⟩

theorem wholeFrames_of_idle {s : State} (hb : s.regs.busy = false) (h : LineInv s) : WholeFrames s.cfg s.trace := by
  obtain ⟨⟨before, hw, htrace⟩, -⟩ := h
  rwa [htrace, frameSoFar, if_neg (by simp [hb]), List.append_nil]

/-- At tick `ph` of bit `n` the line carries, after `before`, the slots of the first `n` bits of the frame and the elapsed
ticks of the next (R137). -/
def FrameBegun (s : State) (before : Trace) (n ph : Nat) : Prop :=
  s.sent = firstBits (stripColor s.mem s.regs.bas) n ∧
  s.trace = before ++ s.sent.flatMap (sym s.cfg) ++
    (sym s.cfg (frameBit (stripColor s.mem s.regs.bas) n)).take ph

theorem lineInv_iff_of_busy {s : State} {base count n ph : Nat} (hr : s.regs = regsAt s.mem base count n ph) :
    LineInv s ↔ ∃ before, WholeFrames s.cfg before ∧ FrameBegun s before n ph := by
  have hbusy : s.regs.busy = true := by rw [hr]; rfl
  have hbit : s.regs.curBit = frameBit (stripColor s.mem s.regs.bas) n := by rw [hr]; exact regsAt_curBit ..
  have hindex : s.regs.bitIndex = n := by rw [hr]; exact regsAt_bitIndex ..
  have hph : s.regs.ph = ph := by rw [hr]; rfl
  simp only [LineInv, frameSoFar, FrameBegun, firstBits, hbusy, hbit, hindex, hph, if_true, forall_const,
    List.append_assoc]
  exact ⟨fun ⟨⟨before, hw, ht⟩, hs⟩ => ⟨before, hw, hs, ht⟩, fun ⟨before, hw, hs, ht⟩ => ⟨⟨before, hw, ht⟩, hs⟩⟩

/-- At the first tick of bit `n` only whole slots of the frame are on the line; with all its bits sent the frame is whole
(R94), and the block idle (R134). -/
theorem lineInv_of_whole_slots {t : State} {before : Trace} {base count n : Nat} (hw : WholeFrames t.cfg before)
    (hsent : t.sent = firstBits (stripColor t.mem base) n) (htrace : t.trace = before ++ t.sent.flatMap (sym t.cfg))
    (hr : t.regs = regsAt t.mem base count n 0 ∨ (n = 24 * count ∧ t.regs = Regs.zero)) : LineInv t := by
  obtain hr | ⟨rfl, hr⟩ := hr
  · refine (lineInv_iff_of_busy hr).2 ⟨before, hw, ?_, ?_⟩
    · rw [hsent, hr, regsAt_bas]
    · rw [htrace, List.take_zero, List.append_nil]
  · refine lineInv_of_idle (by rw [hr]; rfl) ?_
    rw [htrace, hsent, firstBits_all]
    exact wholeFrames_append hw (wholeFrames_wave ..)

/-! ### The sequencer and the steps of a frame keep the line invariant -/

/-- The end of a slot leads to the next bit, or, after the last, to the idle block (R133, R134). -/
theorem slotEnd_regs {b : Bit} {s t : State} (hs : slotEnd b s = .next t) (h : Inv s) (hb : s.regs.busy = true) :
    t.regs = regsAt s.mem s.regs.bas s.regs.cnt (s.regs.bitIndex + 1) 0 ∨
      (s.regs.bitIndex + 1 = 24 * s.regs.cnt ∧ t.regs = Regs.zero) := by
  have hbusy := h.busy_regs hb
  have hlt := bitIndex_lt hbusy
  rw [slotEnd_at (regs_eq_regsAt h hb) hlt hbusy.buffer_backed b] at hs
  split at hs <;> cases hs
  case isTrue => exact .inl rfl
  case isFalse => exact .inr ⟨by omega, rfl⟩

/-- The same for a run of slots. -/
theorem emitBits_regs {bs : List Bit} {s t : State} (he : emitBits bs s = .next t) (h : Inv s)
    (hb : s.regs.busy = true) (hph : s.regs.ph = 0) (hlen : s.regs.bitIndex + bs.length ≤ 24 * s.regs.cnt) :
    t.regs = regsAt s.mem s.regs.bas s.regs.cnt (s.regs.bitIndex + bs.length) 0 ∨
      (s.regs.bitIndex + bs.length = 24 * s.regs.cnt ∧ t.regs = Regs.zero) := by
  have hbusy := h.busy_regs hb
  have hr := regs_eq_regsAt h hb
  rw [hph] at hr
  rw [emitBits_at bs hr (bitIndex_lt hbusy) hlen hbusy.buffer_backed] at he
  dsimp only at he
  split at he <;> cases he
  case isTrue => exact .inl rfl
  case isFalse => exact .inr ⟨by omega, rfl⟩

/-- Sending bits puts their slots on the line (R110). -/
theorem emitBits_line {bs : List Bit} {s t : State} (he : emitBits bs s = .next t) :
    t.sent = s.sent ++ bs ∧ t.trace = s.trace ++ bs.flatMap (sym s.cfg) := by
  induction bs generalizing s with
  | nil => cases he; simp
  | cons b bs ih =>
    obtain ⟨u, hu, ht⟩ := andThen_eq_next (show andThen (emitBit b s) (emitBits bs) = _ from he)
    obtain ⟨hframe, htrace, -, hsent, -⟩ := slotEnd_frame hu
    obtain ⟨hts, htt⟩ := ih ht
    rw [hts, htt, hsent, htrace, hostSideUnchanged_cfg hframe]
    simp

/-- What a busy block has put on the line, in terms of its own registers. -/
theorem frameBegun_of_lineInv {s : State} (h : Inv s) (hl : LineInv s) (hb : s.regs.busy = true) :
    ∃ before, WholeFrames s.cfg before ∧ FrameBegun s before s.regs.bitIndex s.regs.ph :=
  (lineInv_iff_of_busy (regs_eq_regsAt h hb)).1 hl

/-- The bit being sent is the frame's bit at the block's bit index (R74). -/
theorem curBit_eq_frameBit {s : State} (h : Inv s) (hb : s.regs.busy = true) :
    s.regs.curBit = frameBit (stripColor s.mem s.regs.bas) s.regs.bitIndex :=
  (congrArg Regs.curBit (regs_eq_regsAt h hb)).trans (regsAt_curBit ..)

/-- The pin adds its slot's next tick to the line (R30, R132). -/
theorem take_append_pin {s : State} (h : Inv s) (hb : s.regs.busy = true) :
    (sym s.cfg s.regs.curBit).take s.regs.ph ++ [s.pin] = (sym s.cfg s.regs.curBit).take (s.regs.ph + 1) := by
  rw [pin_of_busy hb, sym_take_succ h.cfg_wf _ (h.busy_regs hb).ph_lt]

/-- A busy tick lengthens the slot begun, or ends it (R131, R133). -/
theorem busyTick_keeps_lineInv {s t : State} (ht : busyTick s = .next t) (h : Inv s) (hl : LineInv s)
    (hb : s.regs.busy = true) : LineInv t := by
  have hr := regs_eq_regsAt h hb
  have hbit := curBit_eq_frameBit h hb
  obtain ⟨before, hw, hsent, htrace⟩ := frameBegun_of_lineInv h hl hb
  have hline : s.trace ++ [s.pin] =
      before ++ s.sent.flatMap (sym s.cfg) ++ (sym s.cfg s.regs.curBit).take (s.regs.ph + 1) := by
    rw [htrace, ← hbit, List.append_assoc, take_append_pin h hb]
  unfold busyTick advance at ht
  split at ht
  case isTrue =>
    cases ht
    refine (lineInv_iff_of_busy (congrArg (fun r : Regs => { r with ph := s.regs.ph + 1 }) hr)).2 ⟨before, hw, hsent, ?_⟩
    exact hline.trans (by rw [hbit]; rfl)
  case isFalse hph =>
    have hend : s.cfg.nT ≤ s.regs.ph + 1 := Nat.not_lt.1 hph
    rw [List.take_of_length_le (by rwa [sym_length h.cfg_wf])] at hline
    obtain ⟨hframe, htt, -, hts, -⟩ := slotEnd_frame ht
    obtain ⟨hcfg, -, hmem, -⟩ := hframe
    refine lineInv_of_whole_slots (base := s.regs.bas) (n := s.regs.bitIndex + 1) (by rwa [hcfg]) ?_ ?_
      (hmem ▸ slotEnd_regs ht (drive_keeps_inv h _) hb)
    · rw [hts, drive_sent, drive_regs, hsent, firstBits_succ, hbit, hmem, drive_mem]
    · rw [htt, drive_trace, hline, hts, hcfg]
      simp

/-- Sending the bits of the frame that are due puts their slots on the line, and no other (R110 to R114). -/
theorem emitBits_keeps_lineInv {bs : List Bit} {s t : State} (he : emitBits bs s = .next t) (h : Inv s)
    (hl : LineInv s) (hb : s.regs.busy = true) (hph : s.regs.ph = 0)
    (hlen : s.regs.bitIndex + bs.length ≤ 24 * s.regs.cnt)
    (hdue : bs = (List.range bs.length).map (fun j => frameBit (stripColor s.mem s.regs.bas) (s.regs.bitIndex + j))) :
    LineInv t := by
  obtain ⟨before, hw, hsent, htrace⟩ := frameBegun_of_lineInv h hl hb
  rw [hph, List.take_zero, List.append_nil] at htrace
  obtain ⟨⟨hcfg, -, hmem, -⟩, -⟩ := emitBits_frame he
  obtain ⟨hts, htt⟩ := emitBits_line he
  refine lineInv_of_whole_slots (base := s.regs.bas) (n := s.regs.bitIndex + bs.length) (by rwa [hcfg]) ?_ ?_
    (hmem ▸ emitBits_regs he h hb hph hlen)
  · rw [hts, hsent, hmem, firstBits_add, ← hdue]
  · rw [htt, hts, htrace, hcfg, List.flatMap_append, List.append_assoc]

/-- The bits of a byte that is due are the next eight of the frame (R113). -/
theorem byteBits_of_byteDue {s : State} {v : Byte} (h : Inv s) (hd : byteDue v s = true) :
    byteBits v = (List.range 8).map (fun j => frameBit (stripColor s.mem s.regs.bas) (s.regs.bitIndex + j)) := by
  obtain ⟨hb, -, hk, rfl⟩ := byteDue_iff.1 hd
  have hindex : s.regs.bitIndex % 8 = 0 := by
    simp only [Regs.bitIndex, hk, Fin.val_zero]
    omega
  rw [congrArg Regs.sh (regs_eq_regsAt h hb), regsAt_sh, byteBits_read _ _ hindex]

/-- The bits of a Color that is due are the next 24 of the frame (R114). -/
theorem colorBits_of_colorDue {s : State} {c : Color} (hd : colorDue c s = true) :
    colorBits c = (List.range 24).map (fun j => frameBit (stripColor s.mem s.regs.bas) (s.regs.bitIndex + j)) := by
  obtain ⟨hbyte, hch, rfl⟩ := colorDue_iff.1 hd
  obtain ⟨-, -, hk, -⟩ := byteDue_iff.1 hbyte
  have hindex : s.regs.bitIndex = 24 * s.regs.led := by simp [Regs.bitIndex, hk, hch]
  rw [colorBits_eq, hindex]

/-- The bit that is due is the next of the frame (R111, R112). -/
theorem bit_of_bitDue {s : State} {b : Bit} (h : Inv s) (hd : bitDue b s = true) :
    [b] = (List.range 1).map (fun j => frameBit (stripColor s.mem s.regs.bas) (s.regs.bitIndex + j)) := by
  obtain ⟨hb, -, rfl⟩ := bitDue_iff.1 hd
  rw [curBit_eq_frameBit h hb]
  rfl

/-! ### Commands and operations keep the line invariant -/

/-- At acceptance no tick has passed and no bit is sent: the frame in progress is empty (R130). -/
theorem lineInv_of_accepted {s : State} {base count : Nat} {reads : List Nat} (hl : LineInv s) (hb : s.regs.busy = false) :
    LineInv { s with ie := false, regs := regsAt s.mem base count 0 0, sent := [], reads := reads } :=
  have hw : WholeFrames s.cfg s.trace := wholeFrames_of_idle hb hl
  lineInv_of_whole_slots (n := 0) hw rfl (List.append_nil _).symm (.inl rfl)

/-- A command that ends at once leaves the line alone (R93, R96). -/
theorem lineInv_of_zero_ticks {s : State} (hl : LineInv s) : LineInv s.raiseInvalidArgument ∧ LineInv s.completeAtOnce :=
  ⟨(hl :), (hl :)⟩

theorem issue_keeps_lineInv {s t : State} {base len count : Nat} (hi : issue base len count s = .next t)
    (hl : LineInv s) : LineInv t := by
  obtain ⟨ha, rfl | rfl | ⟨-, -, rfl⟩⟩ := issue_cases hi
  · exact (lineInv_of_zero_ticks hl).1
  · exact (lineInv_of_zero_ticks hl).2
  · exact lineInv_of_accepted hl ha.1

theorem execTransmit_keeps_lineInv {s t : State} {base len count : Nat} (he : execTransmit base len count s = .next t)
    (h : Inv s) (hl : LineInv s) : LineInv t := by
  obtain ⟨ha, rfl | rfl | ⟨h0, hlen, hbits⟩⟩ := execTransmit_cases he
  · exact (lineInv_of_zero_ticks hl).1
  · exact (lineInv_of_zero_ticks hl).2
  · refine emitBits_keeps_lineInv hbits (inv_of_accepted h ha h0 hlen) (lineInv_of_accepted hl ha.1) rfl rfl
      (by simp [regsAt_bitIndex]) ?_
    simp [regsAt_bitIndex, frameBits]

/-- Low ticks of the idle line (R118, R135). -/
theorem lineInv_of_low_ticks {s : State} (m : Nat) (hl : LineInv s) (hb : s.regs.busy = false) :
    LineInv (s.drive (List.replicate m false)) :=
  lineInv_of_idle hb (wholeFrames_append (wholeFrames_of_idle hb hl) (wholeFrames_low _ m))

theorem exec_keeps_lineInv {i : Instr} {s t : State} (he : exec i s = .next t) (h : Inv s) (hl : LineInv s) :
    LineInv t := by
  by_cases hi : ∃ base len count, i = .transmit base len count
  · obtain ⟨base, len, count, rfl⟩ := hi
    exact execTransmit_keeps_lineInv he h hl
  · have hi' : ∀ base len count, i ≠ .transmit base len count := fun b l c he => hi ⟨b, l, c, he⟩
    obtain ⟨hb, hph, bs, hbs, hdue⟩ | ⟨hb, m, -, rfl⟩ := exec_wire hi' he
    · have hlt := bitIndex_lt (h.busy_regs hb)
      obtain ⟨-, rfl, hd⟩ | ⟨-, rfl, hd⟩ | ⟨v, -, rfl, hd⟩ | ⟨c, -, rfl, hd⟩ := hdue
      · exact emitBits_keeps_lineInv hbs h hl hb hph hlt (bit_of_bitDue h hd)
      · exact emitBits_keeps_lineInv hbs h hl hb hph hlt (bit_of_bitDue h hd)
      · exact emitBits_keeps_lineInv hbs h hl hb hph (byteDue_fits h hd) (byteBits_of_byteDue h hd)
      · exact emitBits_keeps_lineInv hbs h hl hb hph (colorDue_fits h hd) (colorBits_of_colorDue hd)
    · exact lineInv_of_low_ticks m hl hb

/-! ### The host and the interrupt environment keep the line invariant -/

/-- A host move of the idle block: only an idle tick adds to the line (R83, R135). -/
theorem hostMove_keeps_lineInv {s t : State} (hm : hostMove s = .next t) (hl : LineInv s) (hb : s.regs.busy = false) :
    LineInv t := by
  obtain ⟨_, rfl⟩ | ⟨_, _, _, rfl⟩ | ⟨_, _, _, -, -, rfl⟩ | ⟨_, _, _, _, -, hi⟩ := hostMove_cases hm
  · exact lineInv_of_low_ticks 1 (hl :) hb
  · exact (hl :)
  · have hw : WholeFrames s.cfg s.trace := wholeFrames_of_idle hb hl
    exact lineInv_of_idle hb hw
  · exact issue_keeps_lineInv hi (hl :)

theorem idleMove_keeps_lineInv {s t : State} (hm : idleMove s = .next t) (hl : LineInv s) (hb : s.regs.busy = false) :
    LineInv t := by
  obtain ⟨_, _, -, -, -, rfl⟩ | ⟨_, -, hm⟩ := idleMove_cases hm
  · exact (hl :)
  · exact hostMove_keeps_lineInv hm (hl :) hb

theorem boundary_keeps_lineInv {s t : State} (hs : boundary s = .next t) (h : Inv s) (hl : LineInv s) : LineInv t := by
  obtain ⟨_, _, -, -, he⟩ | ⟨-, hb, ht⟩ | ⟨-, hb, hm⟩ := boundary_cases hs
  · exact exec_keeps_lineInv he (inv_rescheduled h) (hl :)
  · exact busyTick_keeps_lineInv ht h hl hb
  · exact idleMove_keeps_lineInv hm hl hb

/-- Settles O42: a step is a reset that is due, after which the line starts again, or a boundary, where whoever moves keeps
the line. -/
theorem everyStepKeepsTheLineMadeOfWholeFrames : Obligations.EveryStepKeepsTheLineMadeOfWholeFrames := by
  intro s t h hl hs
  obtain ⟨-, ⟨e, es, -, -, rfl⟩ | ⟨rs, -, hb⟩⟩ := step_cases hs
  · exact lineInv_of_idle rfl (wholeFrames_nil s.cfg)
  · exact boundary_keeps_lineInv hb (inv_rescheduled h) (hl :)

end Sys2Proof.Proofs

/-! PROOFS. The host's moves (R83): one lemma per line of a script, and the whole effect of a step that makes it. -/

namespace Sys2Proof.Proofs

open Sys2Proof.Machine Sys2Proof.Laws

/-! ### One line of the script -/

section
variable {s : State} {rest : List HostMove}

theorem hostMove_output (h : s.script = .output :: rest) :
    hostMove s = .next { s with script := rest, pinOe := true } := by
  simp only [hostMove, h]

theorem hostMove_input (h : s.script = .input :: rest) :
    hostMove s = .next { s with script := rest, pinOe := false } := by
  simp only [hostMove, h]

theorem hostMove_sei (h : s.script = .sei :: rest) : hostMove s = .next { s with script := rest, ie := true } := by
  simp only [hostMove, h, State.unmask]

theorem hostMove_cli (h : s.script = .cli :: rest) : hostMove s = .next { s with script := rest, ie := false } := by
  simp only [hostMove, h, State.mask]

theorem hostMove_wait_zero (h : s.script = .wait 0 :: rest) : hostMove s = .next { s with script := rest } := by
  simp only [hostMove, h]

theorem hostMove_poke {a : Nat} {v : Byte} (h : s.script = .poke a v :: rest) :
    hostMove s = storeByte a v { s with script := rest } := by
  simp only [hostMove, h]

end

/-- Settles O50: an undisturbed idle step is the host's move, line by line. -/
theorem hostMovesHaveTheirEffect : Obligations.HostMovesHaveTheirEffect := by
  intro s rest hc hu hb
  have hstep := step_idle hc hu hb
  exact ⟨fun h => hstep.trans (hostMove_output h), fun h => hstep.trans (hostMove_input h),
    fun h => hstep.trans (hostMove_sei h), fun h => hstep.trans (hostMove_cli h),
    fun h => hstep.trans (hostMove_wait_zero h)⟩

/-! ### `POKE` -/

theorem hostMove_poke_of_backed {s : State} {a : Nat} {v : Byte} {rest : List HostMove}
    (h : s.script = .poke a v :: rest) (hk : backed s.cfg a = true) :
    hostMove s = .next { s with script := rest, mem := s.mem.write a v } :=
  (hostMove_poke h).trans (storeByte_of_backed (s := { s with script := rest }) hk v)

theorem ifBacked_of_outside {a : Nat} {s : State} (h : 2 ^ s.cfg.wAddr ≤ a) (o : Out) :
    ifBacked a s o = .fault (.noSuchAddress a) := if_pos h

theorem ifBacked_of_unbacked {a : Nat} {s : State} (h : a < 2 ^ s.cfg.wAddr) (hk : backed s.cfg a = false) (o : Out) :
    ifBacked a s o = .fault (.unbackedAddress a) := by
  rw [ifBacked, if_neg (Nat.not_le.2 h), if_neg (by simp [hk])]

/-- Settles O52: the step is the host's write of one byte where memory backs the address, and the fault of that write where
it does not. -/
theorem pokeStoresOneByte : Obligations.PokeStoresOneByte := by
  intro s a v rest hinv hu hb hs
  have hstep := step_idle hinv.cfg_wf hu hb
  have hpoke := hstep.trans (hostMove_poke hs)
  refine ⟨fun hk => ⟨_, hstep.trans (hostMove_poke_of_backed hs hk), ?_⟩,
    fun ha => hpoke.trans (ifBacked_of_outside ha _), fun ha hk => hpoke.trans (ifBacked_of_unbacked ha hk _)⟩
  exact ⟨read_write_same hinv.mem_wf a v, fun a' ha' => read_write_other ha' v, write_wf hinv.mem_wf a v, rfl⟩

end Sys2Proof.Proofs

/-! PROOFS. The wave (R94 to R99): its tick at every offset, and what follows for its shape, its rising edges and the Colors
it carries. -/

namespace Sys2Proof.Proofs

open Sys2Proof.Machine Sys2Proof.Laws

/-! ### The ticks of a list of slots -/

/-- Tick `d` of a list of slots is tick `d % N_T` of slot `d / N_T` (R110). -/
theorem slots_getElem? {c : Cfg} (h : c.WF) (bs : List Bit) (d : Nat) :
    (bs.flatMap (sym c))[d]? = bs[d / c.nT]?.map fun b => decide (d % c.nT < highTicks c b) := by
  induction bs generalizing d with
  | nil => simp
  | cons b bs ih =>
    rw [List.flatMap_cons]
    by_cases hd : d < c.nT
    case pos =>
      rw [List.getElem?_append_left (by rwa [sym_length h]), sym_getElem? h b hd, Nat.div_eq_of_lt hd, Nat.mod_eq_of_lt hd]
      rfl
    case neg =>
      have hT : c.nT ≤ d := Nat.not_lt.1 hd
      rw [List.getElem?_append_right (by rwa [sym_length h]), sym_length h, ih, ← Nat.mod_eq_sub_mod hT,
        Nat.div_eq_sub_div (nT_pos h) hT, List.getElem?_cons_succ]

/-- The first tick of the data part of slot `i` is bit `i` (R75). -/
theorem slots_getElem?_data {c : Cfg} (h : c.WF) (bs : List Bit) (i : Nat) :
    (bs.flatMap (sym c))[i * c.nT + c.n0H]? = bs[i]? := by
  obtain ⟨-, h01, h1T⟩ := wf_order h
  have hlt : c.n0H < c.nT := h01.trans h1T
  have hdata : ∀ b : Bit, decide (c.n0H < highTicks c b) = b := by simp [highTicks, h01]
  rw [slots_getElem? h, Nat.mul_add_mod_of_lt hlt, Nat.mul_comm, Nat.mul_add_div (nT_pos h), Nat.div_eq_of_lt hlt,
    Nat.add_zero]
  simp only [hdata, Option.map_id']

/-- Slots carry their bits (R99). -/
theorem slots_injective {c : Cfg} (h : c.WF) : Function.Injective (List.flatMap (sym c)) := fun bs bs' he =>
  List.ext_getElem? fun i => by rw [← slots_getElem?_data h bs, he, slots_getElem?_data h bs']

theorem sym_count_true (c : Cfg) (b : Bit) : (sym c b).count true = highTicks c b := by
  simp [sym, List.count_replicate]

theorem slots_count_true (c : Cfg) (bs : List Bit) :
    (bs.flatMap (sym c)).count true = c.n1H * bs.count true + c.n0H * bs.count false := by
  induction bs with
  | nil => rfl
  | cons b bs ih =>
    rw [List.flatMap_cons, List.count_append, sym_count_true, ih]
    cases b with
    | true => simp [highTicks]; ring
    | false => simp [highTicks]; ring

/-! ### The ticks of a wave -/

theorem wave_eq_slots (c : Cfg) (strip : Nat → Color) (count : Nat) :
    wave c strip count = (frameBits strip count).flatMap (sym c) := rfl

/-- Tick `d` of a wave is tick `d % N_T` of the slot of bit `d / N_T` (R94). -/
theorem wave_getElem? {c : Cfg} (h : c.WF) (strip : Nat → Color) {count d : Nat} (hd : d < 24 * count * c.nT) :
    (wave c strip count)[d]? = some (decide (d % c.nT < highTicks c (frameBit strip (d / c.nT)))) := by
  have hbit : d / c.nT < 24 * count := Nat.div_lt_of_lt_mul (by rwa [Nat.mul_comm])
  rw [wave_eq_slots, slots_getElem? h, frameBits, List.getElem?_map, List.getElem?_range hbit]
  rfl

theorem wave_getElem?_beyond {c : Cfg} (h : c.WF) (strip : Nat → Color) {count d : Nat} (hd : 24 * count * c.nT ≤ d) :
    (wave c strip count)[d]? = none := List.getElem?_eq_none (by rwa [wave_length h])

/-- The first tick of every slot is high. -/
theorem wave_high_at_slot_start {c : Cfg} (h : c.WF) (strip : Nat → Color) {count d : Nat} (hd : d < 24 * count * c.nT)
    (h0 : d % c.nT = 0) : (wave c strip count)[d]? = some true := by
  rw [wave_getElem? h strip hd, h0, decide_eq_true (highTicks_pos h _)]

/-- The last tick of every slot is low. -/
theorem wave_low_at_slot_end {c : Cfg} (h : c.WF) (strip : Nat → Color) {count d : Nat} (hd : d < 24 * count * c.nT)
    (hT : d % c.nT = c.nT - 1) : (wave c strip count)[d]? = some false := by
  have hhigh := highTicks_lt h (frameBit strip (d / c.nT))
  rw [wave_getElem? h strip hd, decide_eq_false (by omega)]

/-- The tick before a multiple of `n` is the last of `n`. -/
theorem pred_mod_of_mod_eq_zero {d n : Nat} (hn : 0 < n) (hd : 0 < d) (h0 : d % n = 0) : (d - 1) % n = n - 1 := by
  obtain ⟨n, rfl⟩ := Nat.exists_eq_succ_of_ne_zero hn.ne'
  obtain ⟨d, rfl⟩ := Nat.exists_eq_succ_of_ne_zero hd.ne'
  exact Nat.succ_mod_succ_eq_zero_iff.1 h0

theorem frame_ticks_pos {c : Cfg} (h : c.WF) {count : Nat} (h0 : 0 < count) : 0 < 24 * count * c.nT :=
  Nat.mul_pos (by omega) (nT_pos h)

theorem wave_head? {c : Cfg} (h : c.WF) (strip : Nat → Color) {count : Nat} (h0 : 0 < count) :
    (wave c strip count).head? = some true := by
  rw [List.head?_eq_getElem?, wave_high_at_slot_start h strip (frame_ticks_pos h h0) (Nat.zero_mod _)]

theorem wave_getLast? {c : Cfg} (h : c.WF) (strip : Nat → Color) {count : Nat} (h0 : 0 < count) :
    (wave c strip count).getLast? = some false := by
  have hpos := frame_ticks_pos h h0
  have hlast := pred_mod_of_mod_eq_zero (nT_pos h) hpos (Nat.mul_mod_left _ _)
  rw [List.getLast?_eq_getElem?, wave_length h, wave_low_at_slot_end h strip (by omega) hlast]

/-- Settles O8: the ticks of a wave are those of its slots, the first high and the last low. -/
theorem waveShape : Obligations.WaveShape := fun c strip count h =>
  ⟨wave_length h strip count, slots_count_true c _, fun h0 => ⟨wave_head? h strip h0, wave_getLast? h strip h0⟩⟩

/-- Within a slot a high tick has a high tick before it (R75). -/
theorem wave_high_before_high {c : Cfg} (h : c.WF) (strip : Nat → Color) {count d : Nat} (hd : d < 24 * count * c.nT)
    (h0 : d % c.nT ≠ 0) (hhigh : (wave c strip count)[d]? = some true) : (wave c strip count)[d - 1]? = some true := by
  obtain ⟨hslot, htick⟩ : (d - 1) / c.nT = d / c.nT ∧ (d - 1) % c.nT = d % c.nT - 1 := by
    have hsplit := Nat.div_add_mod d c.nT
    have hlt := Nat.mod_lt d (nT_pos h)
    exact (Nat.div_mod_unique (nT_pos h)).2 ⟨by omega, by omega⟩
  rw [wave_getElem? h strip hd] at hhigh
  have hbelow := of_decide_eq_true (Option.some.inj hhigh)
  rw [wave_getElem? h strip (by omega), hslot, htick, decide_eq_true (by omega)]

/-- Settles O9: beyond the wave nothing rises; at the start of a slot a high tick follows a low one, and elsewhere a high
tick follows a high one. -/
theorem risingEdgesAreEvenlySpaced : Obligations.RisingEdgesAreEvenlySpaced := by
  intro c strip count d h
  constructor
  · rintro ⟨hhigh, hbefore⟩
    have hd : d < 24 * count * c.nT := by
      by_contra hbeyond
      rw [wave_getElem?_beyond h strip (Nat.not_lt.1 hbeyond)] at hhigh
      cases hhigh
    refine ⟨hd, ?_⟩
    by_contra h0
    obtain rfl | hlow := hbefore
    · exact h0 (Nat.zero_mod _)
    · rw [wave_high_before_high h strip hd h0 hhigh] at hlow
      cases hlow
  · rintro ⟨hd, h0⟩
    refine ⟨wave_high_at_slot_start h strip hd h0, (Nat.eq_zero_or_pos d).imp_right fun hpos => ?_⟩
    exact wave_low_at_slot_end h strip (by omega) (pred_mod_of_mod_eq_zero (nT_pos h) hpos h0)

/-! ### The Colors that bits carry -/

theorem byteBits_injective : Function.Injective byteBits := fun v w h =>
  BitVec.eq_of_getLsbD_eq fun i hi => by
    have hbit := List.map_inj_left.1 h (7 - i) (List.mem_range.2 (by omega))
    rwa [show 7 - (7 - i) = i by omega] at hbit

theorem colorBits_injective : Function.Injective colorBits := by
  intro ⟨red, green, blue⟩ ⟨red', green', blue'⟩ h
  obtain ⟨hrg, hblue⟩ := List.append_inj h (by simp)
  obtain ⟨hred, hgreen⟩ := List.append_inj hrg (by simp)
  simp only [Color.mk.injEq]
  exact ⟨byteBits_injective hred, byteBits_injective hgreen, byteBits_injective hblue⟩

/-- Equal bit lists are of equally many Colors, and of the same ones (R74). -/
theorem frameBits_inj {strip strip' : Nat → Color} {count count' : Nat}
    (h : frameBits strip count = frameBits strip' count') : count = count' ∧ ∀ i, i < count → strip i = strip' i := by
  have hlen := congrArg List.length h
  rw [frameBits_length, frameBits_length] at hlen
  obtain rfl : count = count' := by omega
  refine ⟨rfl, fun i hi => colorBits_injective ?_⟩
  rw [colorBits_eq, colorBits_eq]
  refine List.map_congr_left fun j hj => List.map_inj_left.1 h _ (List.mem_range.2 ?_)
  have := List.mem_range.1 hj
  omega

/-- Settles O7: a wave carries the bits of its frame, and they the Colors. -/
theorem waveIsInjective : Obligations.WaveIsInjective := fun _ _ _ _ _ h he => frameBits_inj (slots_injective h he)

end Sys2Proof.Proofs

/-! PROOFS. `TRANSMIT` as a whole operation (`40_transmit.md`): the whole frame (R90), the two paths that take no tick (R93,
R96), the end state (R100), the refusals (R92), and that the value of `IE` is not read (R95). -/

namespace Sys2Proof.Proofs

open Sys2Proof.Machine Sys2Proof.Laws

theorem exec_transmit (base len count : Nat) (s : State) :
    exec (.transmit base len count) s = execTransmit base len count s := rfl

/-! ### A whole frame (R90, R94, R134) -/

/-- After a frame the low run is the tail of its last slot, whatever it was before (R118). -/
theorem lowRunAfter_wave {c : Cfg} (h : c.WF) (n : Nat) (strip : Nat → Color) {count : Nat} (h0 : 0 < count) :
    lowRunAfter n (wave c strip count) = c.nT - highTicks c (frameBit strip (24 * count - 1)) := by
  have hbits : frameBits strip count = firstBits strip (24 * count - 1) ++ [frameBit strip (24 * count - 1)] := by
    rw [← firstBits_succ, Nat.sub_add_cancel (by omega), firstBits_all]
  rw [wave_eq_slots, hbits, lowRunAfter_slots h]

/-- Settles O12: the ordinary path drives the wave and completes; of the wave `low_run` keeps the last tail. -/
theorem transmitSendsTheWholeFrame : Obligations.TransmitSendsTheWholeFrame := by
  intro s base len count h ha h0 hl
  rw [exec_transmit, execTransmit_of_admitted ha h0 hl, ← lowRunAfter_wave h s.lowRun _ h0]
  rfl

/-- Settles O19: no field of the state that O12 gives depends on `low_run` before the command. -/
theorem transmitDoesNotDependOnLatchPeriod : Obligations.TransmitDoesNotDependOnLatchPeriod := by
  intro s base len count n h ha h0 hl
  rw [transmitSendsTheWholeFrame s base len count h ha h0 hl]
  exact transmitSendsTheWholeFrame { s with lowRun := n } base len count h ha h0 hl

/-! ### Commands that take no tick (R93, R96) -/

/-- Settles O13: of an admitted command the test of `count = 0` is the one that answers. -/
theorem transmitOfNoColorsCompletesAtOnce : Obligations.TransmitOfNoColorsCompletesAtOnce := by
  intro s base len ha
  rw [exec_transmit, execTransmit, command_of_admitted ha, if_neg (Nat.not_lt_zero _), if_pos rfl]
  rfl

/-- Settles O14: of an admitted command the test of `len < count` comes before all else. -/
theorem transmitBeyondTheBufferIsInvalidArgument : Obligations.TransmitBeyondTheBufferIsInvalidArgument := by
  intro s base len count ha hlt
  rw [exec_transmit, execTransmit, command_of_admitted ha, if_pos hlt]
  rfl

/-! ### The end state, on every path (R100) -/

/-- On every path a command ends with the block idle, `IE = 1` and a result (R95, R100, R150). -/
theorem execTransmit_end {s t : State} {base len count : Nat} (h : execTransmit base len count s = .next t)
    (hidle : s.regs.busy = false → s.regs = Regs.zero) :
    t.regs = Regs.zero ∧ t.ie = true ∧ t.ret ≠ none := by
  obtain ⟨ha, ⟨-, rfl⟩ | ⟨-, -, rfl⟩ | ⟨hl, h0, -⟩⟩ := command_eq_next h
  · exact ⟨hidle ha.1, raiseInvalidArgument_ie s, by simp⟩
  · exact ⟨hidle ha.1, completeAtOnce_ie s, by simp⟩
  · rw [execTransmit_of_admitted ha h0 hl] at h
    cases h
    exact ⟨complete_regs _, complete_ie _, by simp⟩

/-- Settles O16: every path ends the command, and none writes the host's side. -/
theorem transmitEndState : Obligations.TransmitEndState := by
  intro s t base len count hinv h
  obtain ⟨⟨-, -, hoe, -⟩, -⟩ := execTransmit_cases h
  have hframe : HostSideUnchanged s t := execTransmit_hostSideUnchanged h
  have ⟨_, hpinOe, _⟩ := hframe
  obtain ⟨hregs, hie, hret⟩ := execTransmit_end h hinv.idle_regs
  exact ⟨hregs, pin_of_idle (by rw [hregs, zero_busy]), hie, hpinOe.trans hoe, hret, hframe⟩

/-! ### The refusals of a command (R92) -/

section
variable {s : State} {base len count : Nat} (hb : s.regs.busy = false) (hfit : s.cfg.OperandsFit base len count)
include hb hfit

theorem exec_transmit_of_pin_not_output (hoe : s.pinOe = false) :
    exec (.transmit base len count) s = .refused .pinNotOutput := by
  rw [exec_transmit, execTransmit, command, if_neg (by simp [hb]), if_neg (not_not.2 hfit), if_pos (by simp [hoe])]

theorem exec_transmit_of_buffer_beyond_space (hoe : s.pinOe = true) (hlen : bufferFits s.cfg base len = false) :
    exec (.transmit base len count) s = .refused .bufferDoesNotFit := by
  rw [exec_transmit, execTransmit, command, if_neg (by simp [hb]), if_neg (not_not.2 hfit), if_neg (by simp [hoe]),
    if_pos (by simp [hlen])]

theorem exec_transmit_of_unreadable_buffer (hoe : s.pinOe = true) (hlen : bufferFits s.cfg base len = true)
    (hread : bufferReadable s.cfg base len = false) : exec (.transmit base len count) s = .refused .bufferUnreadable := by
  rw [exec_transmit, execTransmit, command, if_neg (by simp [hb]), if_neg (not_not.2 hfit), if_neg (by simp [hoe]),
    if_neg (by simp [hlen]), if_pos (by simp [hread])]

end

/-- One byte that memory does not back makes a buffer unreadable (R92 (3)). -/
theorem bufferReadable_of_unbacked_byte {c : Cfg} {base len a : Nat} (hlen : bufferFits c base len = true) (h1 : base ≤ a)
    (h2 : a < base + 3 * len) (hk : backed c a = false) : bufferReadable c base len = false := by
  rw [Bool.eq_false_iff, ne_eq, bufferReadable_iff hlen]
  intro hall
  rw [hall a h1 h2] at hk
  cases hk

/-- Settles O15: by the first of the three tests that fails. -/
theorem transmitRefusalsComeFirstInOrder : Obligations.TransmitRefusalsComeFirstInOrder := by
  intro s base len count hb hfit
  refine ⟨exec_transmit_of_pin_not_output hb hfit, fun hoe hbeyond => ?_, fun hoe hspace ⟨a, h1, h2, hk⟩ => ?_⟩
  · exact exec_transmit_of_buffer_beyond_space hb hfit hoe (decide_eq_false (Nat.not_le.2 hbeyond))
  · have hlen : bufferFits s.cfg base len = true := decide_eq_true hspace
    exact exec_transmit_of_unreadable_buffer hb hfit hoe hlen (bufferReadable_of_unbacked_byte hlen h1 h2 hk)

/-! ### What a command does not read (R26, R95) -/

/-- No test of a command reads `IE`, and both paths that take no tick set it (R93, R96). -/
theorem command_ignores_ie {s : State} {base len count : Nat} {x : Bool} {f : State → Out}
    (hf : f { s with ie := x } = f s) :
    command base len count f { s with ie := x } = command base len count f s := by
  unfold command
  rw [hf]
  rfl

/-- Acceptance clears `IE`, whatever it was (R95, R130). -/
theorem accept_ignores_ie (base count : Nat) (s : State) (x : Bool) :
    accept base count { s with ie := x } = accept base count s := rfl

/-- Settles O18: neither the tests nor acceptance keep the value of `IE`. -/
theorem transmitDoesNotDependOnInterruptEnable : Obligations.TransmitDoesNotDependOnInterruptEnable := by
  intro s base len count x
  rw [exec_transmit, exec_transmit, execTransmit, execTransmit, command_ignores_ie ?accepted]
  case accepted => rw [accept_ignores_ie]

end Sys2Proof.Proofs

/-! PROOFS. The wire (`41_wire_symbols.md`): what the wave says to a decoder (R119) and where it is low (R115), the steps of a
frame where they are due (R110 to R114), as whole operations and tick by tick (R131, R133), and the low runs between frames
(R118, R187). -/

namespace Sys2Proof.Proofs

open Sys2Proof.Machine Sys2Proof.Laws

/-! ### The nominal decoder (R119) -/

/-- A symbol decodes to the bit it stands for. -/
theorem decodeSlot_sym {c : Cfg} (h : c.WF) (b : Bit) : decodeSlot c (sym c b) = some b := by
  cases b with
  | true => exact if_pos rfl
  | false => rw [decodeSlot, if_neg (sym_ne h).symm, if_pos rfl]

/-- Cut at multiples of `N_T` ticks, a list of slots decodes slot by slot to its bits. -/
theorem mapM_decodeSlot_slots {c : Cfg} (h : c.WF) (bs : List Bit) :
    (List.range bs.length).mapM (fun i => decodeSlot c (((bs.flatMap (sym c)).drop (i * c.nT)).take c.nT)) = some bs := by
  induction bs with
  | nil => rfl
  | cons b bs ih =>
    have hfirst : (((b :: bs).flatMap (sym c)).drop (0 * c.nT)).take c.nT = sym c b := by
      rw [Nat.zero_mul, List.drop_zero, List.flatMap_cons, List.take_left' (sym_length h b)]
    have hrest : ∀ i, ((b :: bs).flatMap (sym c)).drop ((i + 1) * c.nT) = (bs.flatMap (sym c)).drop (i * c.nT) := fun i => by
      rw [List.flatMap_cons, Nat.succ_mul, Nat.add_comm, ← List.drop_drop, List.drop_left' (sym_length h b)]
    rw [List.length_cons, List.range_succ_eq_map, List.mapM_cons, hfirst, decodeSlot_sym h, List.mapM_map]
    simp only [Function.comp_def, Nat.succ_eq_add_one, hrest]
    rw [ih]
    rfl

/-- Settles O6: a wave is a whole number of slots, and its slots decode to the bits they were made from. -/
theorem nominalDecoderInvertsTheWave : Obligations.NominalDecoderInvertsTheWave := by
  intro c strip count h
  have hslots := mapM_decodeSlot_slots h (frameBits strip count)
  rw [frameBits_length, ← wave_eq_slots] at hslots
  rw [nominalDecode, wave_length h, if_pos (Nat.mul_mod_left _ _), Nat.mul_div_cancel _ (nT_pos h), hslots]

/-! ### Low runs inside a frame (R115) -/

/-- Both symbols are high throughout the head of the slot (R75). -/
theorem n0H_le_highTicks {c : Cfg} (h : c.WF) (b : Bit) : c.n0H ≤ highTicks c b := by
  obtain ⟨-, h01, -⟩ := wf_order h
  cases b with
  | true => exact h01.le
  | false => exact le_rfl

/-- Neither symbol is high in the tail of the slot (R75). -/
theorem highTicks_le_n1H {c : Cfg} (h : c.WF) (b : Bit) : highTicks c b ≤ c.n1H := by
  obtain ⟨-, h01, -⟩ := wf_order h
  cases b with
  | true => exact le_rfl
  | false => exact h01.le

/-- A slot is shorter than a latch: 1250 ns and the tolerance against 80000 ns (R6, R8). -/
theorem nT_le_nReset {c : Cfg} (h : c.WF) : c.nT ≤ c.nReset := by
  obtain ⟨hslot, -⟩ := wf_near_period h
  have hlatch := wf_latch h
  obtain ⟨⟨htick, -⟩, -⟩ := h
  refine Nat.le_of_mul_le_mul_right (c := c.tickNum) ?_ htick
  simp only [T_NS, TOL_NS, RESET_NS] at hslot hlatch
  omega

/-- The last tick of the head of every slot is high (R75). -/
theorem wave_high_at_head_end {c : Cfg} (h : c.WF) (strip : Nat → Color) {count d : Nat} (hd : d < 24 * count * c.nT)
    (hhead : d % c.nT = c.n0H - 1) : (wave c strip count)[d]? = some true := by
  obtain ⟨h0, -, -⟩ := wf_order h
  have hhigh := n0H_le_highTicks h (frameBit strip (d / c.nT))
  rw [wave_getElem? h strip hd, hhead, decide_eq_true (by omega)]

/-- A tick of the low run in `before ++ 0^m ++ 1 after` is low. -/
theorem getElem?_lowRun (before after : Trace) {m d : Nat} (h1 : before.length ≤ d) (h2 : d < before.length + m) :
    (before ++ List.replicate m false ++ true :: after)[d]? = some false := by
  rw [List.append_assoc, List.getElem?_append_right h1, List.getElem?_append_left (by simp; omega),
    List.getElem?_replicate, if_pos (by omega)]

/-- The tick after the low run in `before ++ 0^m ++ 1 after` is high. -/
theorem getElem?_after_lowRun (before after : Trace) (m : Nat) :
    (before ++ List.replicate m false ++ true :: after)[before.length + m]? = some true := by
  rw [List.getElem?_append_right (by simp)]
  simp

/-- A low run that a high tick follows ends with a slot, and the head of that slot is not in it. -/
theorem lowRun_of_wave_le {c : Cfg} (h : c.WF) {strip : Nat → Color} {count m : Nat} {before after : Trace}
    (hw : wave c strip count = before ++ List.replicate m false ++ true :: after) : m ≤ c.nT - c.n0H := by
  obtain ⟨h0, h01, h1T⟩ := wf_order h
  by_contra hlong
  have hlow : ∀ d, before.length ≤ d → d < before.length + m → (wave c strip count)[d]? = some false :=
    fun d h1 h2 => hw ▸ getElem?_lowRun before after h1 h2
  have hrise : (wave c strip count)[before.length + m]? = some true := hw ▸ getElem?_after_lowRun before after m
  obtain ⟨hlt, hstart⟩ := (risingEdgesAreEvenlySpaced c strip count (before.length + m) h).1
    ⟨hrise, .inr (hlow _ (by omega) (by omega))⟩
  obtain ⟨i, hi⟩ := exists_eq_mul_left_of_dvd (Nat.dvd_of_mod_eq_zero hstart)
  obtain ⟨i, rfl⟩ : ∃ j, i = j + 1 := Nat.exists_eq_succ_of_ne_zero (by rintro rfl; omega)
  rw [Nat.succ_mul] at hi
  have hhead := wave_high_at_head_end h strip (count := count) (d := i * c.nT + (c.n0H - 1)) (by omega)
    (Nat.mul_add_mod_of_lt (by omega))
  rw [hlow _ (by omega) (by omega)] at hhead
  cases hhead

/-- Settles O10: the bound on the run, and the order of the constants it is compared with. -/
theorem noLatchInsideAFrame : Obligations.NoLatchInsideAFrame := by
  intro c strip count m before after h hw
  obtain ⟨h0, -, -⟩ := wf_order h
  exact ⟨lowRun_of_wave_le h hw, Nat.sub_lt (nT_pos h) h0, nT_le_nReset h⟩

/-! ### Low runs between frames (R118, R187) -/

/-- With the block idle `LATCH` is low ticks on the pin. -/
theorem exec_latch_of_idle {s : State} (hb : s.regs.busy = false) (m : Nat) :
    exec (.latch m) s =
      .next { s with trace := s.trace ++ List.replicate m false, lowRun := s.lowRun + m } := by
  rw [exec, execLatch, if_neg (by simp [hb]), State.drive, lowRunAfter_replicate_false]

/-- Settles O25: the low ticks lengthen `low_run` by as many, which alone is enough for a latch. -/
theorem latchIsARunOfLowTicks : Obligations.LatchIsARunOfLowTicks := by
  intro s m hb
  refine ⟨exec_latch_of_idle hb m, fun hm t ht => ?_⟩
  rw [exec_latch_of_idle hb m] at ht
  cases ht
  exact hm.trans (Nat.le_add_left m s.lowRun)

/-- Settles O20: `low_run` after the frame is the tail of the last slot, at least that of a 1, and the wait adds to it. -/
theorem waitingAfterAFrameSeparatesTheNext : Obligations.WaitingAfterAFrameSeparatesTheNext := by
  intro s t u base len count w h ha h0 hl ht hu
  rw [transmitSendsTheWholeFrame s base len count h ha h0 hl] at ht
  cases ht
  rw [exec_latch_of_idle rfl w] at hu
  cases hu
  refine ⟨rfl, fun hw => ?_⟩
  have htail := highTicks_le_n1H h (frameBit (stripColor s.mem base) (24 * count - 1))
  simp only [Separated]
  omega

/-! ### The steps of a frame where they are due (R110 to R114) -/

/-- `bs` are the next bits of the frame in progress, and the sequencer is at the first tick of the first of them. -/
structure BitsDue (s : State) (bs : List Bit) : Prop where
  busy : s.regs.busy = true
  slot_start : s.regs.ph = 0
  nonempty : 0 < bs.length
  fits : s.regs.bitIndex + bs.length ≤ 24 * s.regs.cnt
  bits : bs = (List.range bs.length).map (fun j => frameBit (stripColor s.mem s.regs.bas) (s.regs.bitIndex + j))

theorem bitsDue_of_bitDue {s : State} {b : Bit} (h : Inv s) (hd : bitDue b s = true) : BitsDue s [b] :=
  have ⟨hb, hph, _⟩ := bitDue_iff.1 hd
  ⟨hb, hph, Nat.one_pos, bitIndex_lt (h.busy_regs hb), bit_of_bitDue h hd⟩

theorem bitsDue_of_byteDue {s : State} {v : Byte} (h : Inv s) (hd : byteDue v s = true) : BitsDue s (byteBits v) :=
  have ⟨hb, hph, _⟩ := byteDue_iff.1 hd
  ⟨hb, hph, by simp, byteDue_fits h hd, byteBits_of_byteDue h hd⟩

theorem bitsDue_of_colorDue {s : State} {c : Color} (h : Inv s) (hd : colorDue c s = true) : BitsDue s (colorBits c) :=
  have ⟨hbyte, _⟩ := colorDue_iff.1 hd
  have ⟨hb, hph, _⟩ := byteDue_iff.1 hbyte
  ⟨hb, hph, by simp, colorDue_fits h hd, colorBits_of_colorDue hd⟩

/-- The registers at the first tick of the bits that are due. -/
theorem regs_of_bitsDue {s : State} {bs : List Bit} (h : Inv s) (hd : BitsDue s bs) :
    s.regs = regsAt s.mem s.regs.bas s.regs.cnt s.regs.bitIndex 0 := by
  have hr := regs_eq_regsAt h hd.busy
  rwa [hd.slot_start] at hr

theorem exec_bit1_of_due {s : State} (hd : bitDue true s = true) : exec .bit1 s = emitBits [true] s := by
  rw [exec, execBit1, if_pos hd, emitBits_one]

theorem exec_bit0_of_due {s : State} (hd : bitDue false s = true) : exec .bit0 s = emitBits [false] s := by
  rw [exec, execBit0, if_pos hd, emitBits_one]

theorem exec_emitByte_of_due {s : State} {v : Byte} (hd : byteDue v s = true) :
    exec (.emitByte v) s = emitBits (byteBits v) s := by
  rw [exec, execEmitByte, if_pos hd, emitByte_eq]

theorem exec_emitColor_of_due {s : State} {c : Color} (hd : colorDue c s = true) :
    exec (.emitColor c) s = emitBits (colorBits c) s := by
  rw [exec, execEmitColor, if_pos hd, emitColor_eq]

/-- Bits that are due are sent: on to the next bit of the frame, or to completion after its last (R133, R134). -/
theorem emitBits_of_bitsDue {s : State} {bs : List Bit} (h : Inv s) (hd : BitsDue s bs) :
    ∃ t, emitBits bs s = .next t ∧ SlotsSent s bs t := by
  have hbusy := h.busy_regs hd.busy
  rw [emitBits_at bs (regs_of_bitsDue h hd) (bitIndex_lt hbusy) hd.fits hbusy.buffer_backed]
  dsimp only
  split
  case isTrue hmore =>
    refine ⟨_, rfl, rfl, rfl, ?_⟩
    rw [if_pos hmore]
    exact ⟨rfl, rfl, rfl, rfl, regsAt_bitIndex .., rfl, rfl⟩
  case isFalse hlast =>
    refine ⟨_, rfl, rfl, rfl, ?_⟩
    rw [if_neg hlast]
    exact ⟨rfl, rfl, rfl⟩

/-- The slot of a single bit, written out. -/
theorem trace_of_slotsSent_one {s t : State} {b : Bit} (h : SlotsSent s [b] t) :
    t.trace = s.trace ++
      (List.replicate (highTicks s.cfg b) true ++ List.replicate (s.cfg.nT - highTicks s.cfg b) false) := by
  obtain ⟨htrace, -⟩ := h
  rw [htrace, List.flatMap_singleton, sym]

/-- Settles O21: the one bit that is due is a 1. -/
theorem bit1SendsItsSlot : Obligations.Bit1SendsItsSlot := by
  intro s h hd
  obtain ⟨t, ht, hsent⟩ := emitBits_of_bitsDue h (bitsDue_of_bitDue h hd)
  exact ⟨t, (exec_bit1_of_due hd).trans ht, hsent, trace_of_slotsSent_one hsent⟩

/-- Settles O22: the one bit that is due is a 0. -/
theorem bit0SendsItsSlot : Obligations.Bit0SendsItsSlot := by
  intro s h hd
  obtain ⟨t, ht, hsent⟩ := emitBits_of_bitsDue h (bitsDue_of_bitDue h hd)
  exact ⟨t, (exec_bit0_of_due hd).trans ht, hsent, trace_of_slotsSent_one hsent⟩

/-- Settles O23: the eight bits of the byte that is due. -/
theorem emitByteSendsEightSlots : Obligations.EmitByteSendsEightSlots := by
  intro s v h hd
  obtain ⟨t, ht, hsent⟩ := emitBits_of_bitsDue h (bitsDue_of_byteDue h hd)
  exact ⟨t, (exec_emitByte_of_due hd).trans ht, hsent⟩

/-- Settles O24: the 24 bits of the Color that is due. -/
theorem emitColorSendsRedGreenBlue : Obligations.EmitColorSendsRedGreenBlue := by
  intro s c h hd
  obtain ⟨t, ht, hsent⟩ := emitBits_of_bitsDue h (bitsDue_of_colorDue h hd)
  exact ⟨t, (exec_emitColor_of_due hd).trans ht, hsent⟩

/-- Settles O28: no operation writes the host's side; sending bits leaves `IE` and the result to completion, which ends the
command, and low ticks leave both. -/
theorem frameStepsChangeNothingElse : Obligations.FrameStepsChangeNothingElse := by
  intro s t i hi h
  refine ⟨exec_hostSideUnchanged h, ?_⟩
  obtain ⟨hbusy, -, bs, hbs, -⟩ | ⟨-, m, -, rfl⟩ := exec_wire hi h
  · refine ⟨fun hstay => ?_, fun hidle => by rw [hbusy] at hidle; cases hidle⟩
    obtain ⟨-, ⟨-, hie, hret⟩ | ⟨hdone, -⟩⟩ := emitBits_frame hbs
    · exact ⟨hie, hret⟩
    · rw [hdone, hbusy] at hstay
      cases hstay
  · exact ⟨fun _ => ⟨drive_ie _ s, drive_ret _ s⟩, fun _ => ⟨drive_regs _ s, drive_sent _ s, drive_reads _ s⟩⟩

/-! ### The steps of a frame, tick by tick (R131, R133) -/

/-- `s` with its result gone and `n` boundaries counted off a pending `rst` (R29, log 9): what an operation of `n` ticks starts
from when it runs as a whole. -/
def afterTicks (n : Nat) (s : State) : State := { s with ret := none, resets := resetsAfter n s.resets }

/-- The ticks of the slot of bit `n`, from its first (R110, R131). -/
theorem stepN_slot {s : State} {base count n : Nat} (hc : s.cfg.WF) (hp : s.port = none)
    (hr : s.regs = regsAt s.mem base count n 0) (hrst : NoResetWithin s.cfg.nT s) :
    stepN s.cfg.nT s = emitBit (frameBit (stripColor s.mem base) n) (afterTicks s.cfg.nT s) := by
  have hbit : s.regs.curBit = frameBit (stripColor s.mem base) n := by rw [hr, regsAt_curBit]
  have hph : s.regs.ph = 0 := by rw [hr, regsAt_ph]
  obtain ⟨k, hk⟩ : ∃ k, k + 1 = s.cfg.nT := ⟨s.cfg.nT - 1, Nat.sub_add_cancel (nT_pos hc)⟩
  have hslot := slot_ticks hc hp (by rw [hr, regsAt_busy]) k (by rwa [hk]) (by rw [hph, Nat.zero_add, hk])
  rwa [hk, hph, List.drop_zero, hbit] at hslot

/-- The state once `bs` have been sent from bit `n` on, with bits of the frame still to come (R133). -/
def slotsSentWithin (base count n : Nat) (bs : List Bit) (s : State) : State :=
  { s.drive (bs.flatMap (sym s.cfg)) with
    sent := s.sent ++ bs
    reads := s.reads ++ readsBetween base count n bs.length
    regs := regsAt s.mem base count (n + bs.length) 0 }

/-- Bits that end before the frame does leave the block busy, at the next bit. -/
theorem emitBits_within {s : State} {base count n : Nat} {bs : List Bit} (hr : s.regs = regsAt s.mem base count n 0)
    (hlen : n + bs.length < 24 * count) (hback : ∀ a, base ≤ a → a < base + 3 * count → backed s.cfg a = true) :
    emitBits bs s = .next (slotsSentWithin base count n bs s) := by
  rw [emitBits_at bs hr (by omega) hlen.le hback]
  exact if_pos hlen

/-- Sending bits leaves the result and the reset input alone, so the boundaries of two parts of a step add up. -/
theorem afterTicks_slotsSentWithin (base count n i j : Nat) (bs : List Bit) (s : State) :
    afterTicks j (slotsSentWithin base count n bs (afterTicks i s)) =
      slotsSentWithin base count n bs (afterTicks (i + j) s) := by
  simp [afterTicks, slotsSentWithin, State.drive]

/-- The ticks of the slots of `m + 1` bits from bit `n` on: slot by slot, as long as the frame has a bit left. -/
theorem stepN_slots {s : State} {base count n : Nat} (hc : s.cfg.WF) (hp : s.port = none)
    (hr : s.regs = regsAt s.mem base count n 0) (hback : ∀ a, base ≤ a → a < base + 3 * count → backed s.cfg a = true)
    (m : Nat) (hlen : n + (m + 1) ≤ 24 * count) (hrst : NoResetWithin ((m + 1) * s.cfg.nT) s) :
    stepN ((m + 1) * s.cfg.nT) s =
      emitBits ((List.range (m + 1)).map fun j => frameBit (stripColor s.mem base) (n + j))
        (afterTicks ((m + 1) * s.cfg.nT) s) := by
  induction m with
  | zero =>
    rw [Nat.zero_add, Nat.one_mul] at hrst ⊢
    rw [stepN_slot hc hp hr hrst]
    exact (emitBits_one _ _).symm
  | succ m ih =>
    set bs := (List.range (m + 1)).map fun j => frameBit (stripColor s.mem base) (n + j) with hbs
    have hbslen : bs.length = m + 1 := by simp [hbs]
    have hsofar : ∀ k, emitBits bs (afterTicks k s) = .next (slotsSentWithin base count n bs (afterTicks k s)) :=
      fun k => emitBits_within (s := afterTicks k s) hr (by omega) hback
    rw [Nat.succ_mul] at hrst ⊢
    rw [stepN_add, ih (by omega) (noResetWithin_mono hrst (Nat.le_add_right _ _)), List.range_succ, List.map_append,
      emitBits_append, ← hbs, hsofar, hsofar, andThen_next, andThen_next, List.map_singleton, emitBits_one,
      ← afterTicks_slotsSentWithin, ← hbslen]
    exact stepN_slot (s := slotsSentWithin base count n bs (afterTicks (bs.length * s.cfg.nT) s)) hc hp rfl
      (noResetWithin_after (by rwa [hbslen]) rfl)

/-- Bits that are due go out tick by tick as they go out at once. -/
theorem stepN_of_bitsDue {s : State} {bs : List Bit} (h : Inv s) (hp : s.port = none) (hd : BitsDue s bs)
    (hrst : NoResetWithin (bs.length * s.cfg.nT) s) :
    stepN (bs.length * s.cfg.nT) s = emitBits bs (afterTicks (bs.length * s.cfg.nT) s) := by
  obtain ⟨m, hm⟩ := Nat.exists_eq_succ_of_ne_zero hd.nonempty.ne'
  have hfits := hd.fits
  have hbits := hd.bits
  rw [hm] at hrst hfits hbits ⊢
  rw [stepN_slots h.cfg_wf hp (regs_of_bitsDue h hd) (h.busy_regs hd.busy).buffer_backed m hfits hrst, ← hbits]

/-- Settles O38: each step sends bits that are due, and being due does not depend on the result or on the reset input. -/
theorem frameStepsAreTheirTicks : Obligations.FrameStepsAreTheirTicks := by
  intro s h hp
  have hbit : ∀ b, bitDue b s = true → NoResetWithin s.cfg.nT s →
      stepN s.cfg.nT s = emitBits [b] (afterTicks s.cfg.nT s) := fun b hd hrst => by
    have hticks := stepN_of_bitsDue h hp (bitsDue_of_bitDue h hd)
    rw [List.length_singleton, Nat.one_mul] at hticks
    exact hticks hrst
  refine ⟨fun hd hrst => ?bit1, fun hd hrst => ?bit0, fun v hd hrst => ?emitByte, fun c hd hrst => ?emitColor⟩
  case bit1 => exact (hbit true hd hrst).trans (exec_bit1_of_due (s := afterTicks _ s) hd).symm
  case bit0 => exact (hbit false hd hrst).trans (exec_bit0_of_due (s := afterTicks _ s) hd).symm
  case emitByte =>
    exact (stepN_of_bitsDue h hp (bitsDue_of_byteDue h hd) hrst).trans
      (exec_emitByte_of_due (s := afterTicks _ s) hd).symm
  case emitColor =>
    exact (stepN_of_bitsDue h hp (bitsDue_of_colorDue h hd) hrst).trans
      (exec_emitColor_of_due (s := afterTicks _ s) hd).symm

end Sys2Proof.Proofs

/-! PROOFS. The sequencer (`42_sequencer.md`): what a command in the host's script does at its boundary (R130, R136), the
idle tick (R135), the busy tick and its advance (R131 to R134), and a command tick by tick (R137, R138). -/

namespace Sys2Proof.Proofs

open Sys2Proof.Machine Sys2Proof.Laws

/-! ### The host's line at an undisturbed idle boundary (R130, R135, R136) -/

/-- `s` with the host's script at `rest`, its result gone, and `n` boundaries counted off a pending `rst`; the waiting
handlers see one, the idle boundary at `s` (R29, log 8, log 9). -/
def hostBoundary (rest : List HostMove) (n : Nat) (s : State) : State :=
  { s with script := rest, ret := none, handlers := handlersAfter s, resets := resetsAfter n s.resets }

/-- What acceptance of a command makes of `s` (R130). -/
def accepted (base count : Nat) (s : State) : State :=
  { s with ie := false, regs := regsAt s.mem base count 0 0, sent := [], reads := s.reads ++ [base] }

section
variable {s : State} {base len count n : Nat} {rest : List HostMove}

theorem hostMove_transmit (h : s.script = .transmit base len count :: rest) :
    hostMove s = issue base len count { s with script := rest } := by
  simp only [hostMove, h]

theorem hostMove_end (h : s.script = []) : hostMove s = idleTick s := by
  simp only [hostMove, h]

theorem hostMove_wait_succ (h : s.script = .wait (n + 1) :: rest) :
    hostMove s = idleTick { s with script := .wait n :: rest } := by
  simp only [hostMove, h]

/-- The sequencer takes an admitted command in one of three ways (R93, R96, R130). -/
theorem issue_of_admitted (ha : Admitted s base len count) :
    issue base len count s =
      if len < count then .next s.raiseInvalidArgument
      else if count = 0 then .next s.completeAtOnce
      else .next (accepted base count s) := by
  rw [issue, command_of_admitted ha]
  split
  case isTrue => rfl
  case isFalse hle =>
    split
    case isTrue => rfl
    case isFalse h0 => exact accept_eq ha (Nat.pos_of_ne_zero h0) (Nat.not_lt.1 hle)

/-- An undisturbed idle step whose line is a command issues it (R130, R136). -/
theorem step_transmit (hc : s.cfg.WF) (hu : Undisturbed 1 s) (hb : s.regs.busy = false)
    (hs : s.script = .transmit base len count :: rest) :
    step s = issue base len count (hostBoundary rest 1 s) :=
  (step_idle hc hu hb).trans (hostMove_transmit hs)

/-- The step that accepts a command. -/
theorem step_accepts (hc : s.cfg.WF) (hu : Undisturbed 1 s) (hs : s.script = .transmit base len count :: rest)
    (ha : Admitted s base len count) (h0 : 0 < count) (hl : count ≤ len) :
    step s = .next (accepted base count (hostBoundary rest 1 s)) := by
  rw [step_transmit hc hu ha.1 hs, issue_of_admitted (s := hostBoundary rest 1 s) ha, if_neg (by omega), if_neg (by omega)]

end

/-- Settles O30: the registers at bit 0 of the frame, tick 0 of its slot, are the ones that acceptance loads. -/
theorem acceptanceLoadsTheRegisters : Obligations.AcceptanceLoadsTheRegisters :=
  fun _ _ _ _ _ hc hu hs ha h0 hl => step_accepts hc hu hs ha h0 hl

/-- Settles O31: of the three ways the sequencer takes an admitted command, the two that send nothing. -/
theorem zeroTickCommandsTakeOneBoundary : Obligations.ZeroTickCommandsTakeOneBoundary := by
  intro s base len count rest hc hu hs ha
  have hstep := (step_transmit hc hu ha.1 hs).trans (issue_of_admitted (s := hostBoundary rest 1 s) ha)
  refine ⟨fun h0 => hstep.trans ?completes, fun hlt => hstep.trans ?error⟩
  case completes =>
    rw [if_neg (by omega), if_pos h0]
    rfl
  case error =>
    rw [if_pos hlt]
    rfl

/-- Settles O35: both at the end of the script and at a `WAIT` the host's move is the idle tick. -/
theorem idleTickKeepsTheLineLow : Obligations.IdleTickKeepsTheLineLow := by
  intro s n rest hc hu hb
  have hstep := step_idle hc hu hb
  exact ⟨fun h => hstep.trans (hostMove_end h), fun h => hstep.trans (hostMove_wait_succ h)⟩

/-! ### The pin during a busy tick (R30, R132) -/

theorem pin_in_head {s : State} (hc : s.cfg.WF) (hb : s.regs.busy = true) (hph : s.regs.ph < s.cfg.n0H) :
    s.pin = true := by
  rw [pin_of_busy hb, decide_eq_true (hph.trans_le (n0H_le_highTicks hc _))]

theorem pin_in_data {s : State} (hb : s.regs.busy = true) (h0 : s.cfg.n0H ≤ s.regs.ph) (h1 : s.regs.ph < s.cfg.n1H) :
    s.pin = s.regs.curBit := by
  rw [pin_of_busy hb]
  cases s.regs.curBit with
  | true => exact decide_eq_true h1
  | false => exact decide_eq_false (Nat.not_lt.2 h0)

theorem pin_in_tail {s : State} (hc : s.cfg.WF) (hb : s.regs.busy = true) (hph : s.cfg.n1H ≤ s.regs.ph) :
    s.pin = false := by
  rw [pin_of_busy hb, decide_eq_false (Nat.not_lt.2 ((highTicks_le_n1H hc _).trans hph))]

/-- Settles O32: the step is a busy tick, which drives the pin, and the pin is in one of the three parts of the slot. -/
theorem busyTickDrivesHeadDataTail : Obligations.BusyTickDrivesHeadDataTail := by
  intro s t hrst hp hb hs
  obtain ⟨hc, -⟩ := step_cases hs
  rw [step_busy hc hrst hp hb] at hs
  obtain ⟨-, htrace, hlow, -⟩ := busyTick_frame hs
  exact ⟨htrace, hlow, pin_in_head hc hb, pin_in_data hb, pin_in_tail hc hb⟩

/-! ### The advance (R133, R134) -/

/-- Inside a slot only the tick counter moves. -/
theorem busyTick_within_slot {s : State} (h : s.regs.ph + 1 < s.cfg.nT) :
    busyTick s = .next { s.drive [s.pin] with regs := { s.regs with ph := s.regs.ph + 1 } } := if_pos h

theorem busyTick_at_slot_end {s : State} (h : s.cfg.nT ≤ s.regs.ph + 1) :
    busyTick s = slotEnd s.regs.curBit (s.drive [s.pin]) := if_neg (Nat.not_lt.2 h)

section
variable {s : State} (b : Bit)

theorem slotEnd_within_byte (hk : s.regs.k.val < 7) :
    slotEnd b s = .next { s with sent := s.sent ++ [b], regs := { s.regs with ph := 0, k := s.regs.k + 1 } } := if_pos hk

theorem slotEnd_within_color (hk : s.regs.k.val = 7) (hch : s.regs.ch.val < 2)
    (hback : backed s.cfg (chanAddr s.regs.bas s.regs.led (s.regs.ch.val + 1)) = true) :
    slotEnd b s = .next { s with
      sent := s.sent ++ [b]
      regs := { s.regs with
        ph := 0, k := 0, ch := s.regs.ch + 1, sh := s.mem.read (chanAddr s.regs.bas s.regs.led (s.regs.ch.val + 1)) }
      reads := s.reads ++ [chanAddr s.regs.bas s.regs.led (s.regs.ch.val + 1)] } :=
  (if_neg hk.not_lt).trans ((if_pos hch).trans
    (loadByte_of_backed (s := { s with sent := s.sent ++ [b] }) hback _))

theorem slotEnd_within_frame (hk : s.regs.k.val = 7) (hch : s.regs.ch.val = 2) (hled : s.regs.led + 1 < s.regs.cnt)
    (hback : backed s.cfg (chanAddr s.regs.bas (s.regs.led + 1) 0) = true) :
    slotEnd b s = .next { s with
      sent := s.sent ++ [b]
      regs := { s.regs with
        ph := 0, k := 0, ch := 0, led := s.regs.led + 1, sh := s.mem.read (chanAddr s.regs.bas (s.regs.led + 1) 0) }
      reads := s.reads ++ [chanAddr s.regs.bas (s.regs.led + 1) 0] } :=
  (if_neg hk.not_lt).trans ((if_neg hch.not_lt).trans ((if_pos hled).trans
    (loadByte_of_backed (s := { s with sent := s.sent ++ [b] }) hback _)))

theorem slotEnd_completes (hk : s.regs.k.val = 7) (hch : s.regs.ch.val = 2) (hled : s.regs.cnt ≤ s.regs.led + 1) :
    slotEnd b s = .next { s with sent := s.sent ++ [b] }.complete :=
  (if_neg hk.not_lt).trans ((if_neg hch.not_lt).trans (if_neg (Nat.not_lt.2 hled)))

end

/-- Every channel byte of the buffer of the command in progress is backed (R36, R51). -/
theorem backed_chanAddr {s : State} (h : BusyInv s) {i c : Nat} (hi : i < s.regs.cnt) (hc : c < 3) :
    backed s.cfg (chanAddr s.regs.bas i c) = true :=
  h.buffer_backed _ (by simp only [chanAddr]; omega) (by simp only [chanAddr]; omega)

section
variable {s : State} (h : Inv s) (hrst : NoResetWithin 1 s) (hp : s.port = none) (hb : s.regs.busy = true)
include h hrst hp hb

theorem step_within_slot (hph : s.regs.ph + 1 < s.cfg.nT) :
    step s = .next { (afterTicks 1 s).drive [s.pin] with regs := { s.regs with ph := s.regs.ph + 1 } } :=
  (step_busy h.cfg_wf hrst hp hb).trans (busyTick_within_slot hph)

theorem step_at_slot_end (hph : s.cfg.nT ≤ s.regs.ph + 1) :
    step s = slotEnd s.regs.curBit ((afterTicks 1 s).drive [s.pin]) :=
  (step_busy h.cfg_wf hrst hp hb).trans (busyTick_at_slot_end hph)

end

/-- Settles O33: inside a slot the step moves the tick counter, and at the end of a slot the counter nest decides. -/
theorem advanceFollowsTheCounterNest : Obligations.AdvanceFollowsTheCounterNest := by
  intro s h hrst hp hb
  have hbusy := h.busy_regs hb
  have hled := hbusy.led_lt
  have hend : s.regs.ph = s.cfg.nT - 1 → step s = slotEnd s.regs.curBit ((afterTicks 1 s).drive [s.pin]) :=
    fun hph => step_at_slot_end h hrst hp hb (by omega)
  refine ⟨fun hph => ?slot, fun hph hk => ?byte, fun hph hk hch => ?color, fun hph hk hch hmore => ?frame⟩
  case slot => exact step_within_slot h hrst hp hb (by omega)
  case byte => exact (hend hph).trans (slotEnd_within_byte _ hk)
  case color =>
    have hback := backed_chanAddr hbusy hled (c := s.regs.ch.val + 1) (by omega)
    exact (hend hph).trans (slotEnd_within_color _ hk hch hback)
  case frame =>
    have hnext : s.regs.led + 1 < s.regs.cnt := by omega
    have hback := backed_chanAddr hbusy hnext (c := 0) (by omega)
    exact (hend hph).trans (slotEnd_within_frame _ hk hch hnext hback)

/-- Settles O34: the last tick of a slot is in its tail, and at the end of the last slot the counter nest has no case left
but completion. -/
theorem completionClearsTheBlock : Obligations.CompletionClearsTheBlock := by
  intro s h hrst hp hb hled hch hk hph
  obtain ⟨-, -, h1T⟩ := wf_order h.cfg_wf
  have hpin : s.pin = false := pin_in_tail h.cfg_wf hb (by omega)
  have hbit : s.regs.curBit = s.regs.sh.getLsbD 0 := by rw [Regs.curBit, hk]
  have hlast : s.regs.cnt ≤ s.regs.led + 1 := by omega
  refine ⟨hpin, ?_⟩
  rw [step_at_slot_end h hrst hp hb (by omega), slotEnd_completes (s := (afterTicks 1 s).drive _) _ hk hch hlast, hpin, hbit]
  rfl

/-! ### The sequencer at a tick of the frame (R23, R137) -/

/-- The command on the buffer at `base` is in progress at tick `o` of its frame: the registers are those of the bit and the
tick of its slot that `o` falls in, and memory backs the buffer. -/
structure AtTick (s : State) (base count o : Nat) : Prop where
  cfg_wf : s.cfg.WF
  port_empty : s.port = none
  regs : s.regs = regsAt s.mem base count (o / s.cfg.nT) (o % s.cfg.nT)
  within : o < 24 * count * s.cfg.nT
  buffer_backed : ∀ a, base ≤ a → a < base + 3 * count → backed s.cfg a = true

section
variable {s t : State} {base count o : Nat}

theorem AtTick.moved {o' : Nat} (h : AtTick s base count o) (hcfg : t.cfg = s.cfg) (hport : t.port = s.port)
    (hmem : t.mem = s.mem) (hr : t.regs = regsAt s.mem base count (o' / s.cfg.nT) (o' % s.cfg.nT))
    (ho : o' < 24 * count * s.cfg.nT) : AtTick t base count o' where
  cfg_wf := hcfg ▸ h.cfg_wf
  port_empty := hport.trans h.port_empty
  regs := by rwa [hmem, hcfg]
  within := hcfg ▸ ho
  buffer_backed := hcfg ▸ h.buffer_backed

/-- Neither the result nor the reset input makes a difference. -/
theorem AtTick.rescheduled {ret : Option ResultCode} {resets : List ResetEvent} (h : AtTick s base count o) :
    AtTick { s with ret := ret, resets := resets } base count o :=
  h.moved rfl rfl rfl h.regs h.within

theorem AtTick.busy (h : AtTick s base count o) : s.regs.busy = true := by rw [h.regs, regsAt_busy]

theorem AtTick.bit_within (h : AtTick s base count o) : o / s.cfg.nT < 24 * count :=
  Nat.div_lt_of_lt_mul (by rw [Nat.mul_comm]; exact h.within)

/-- The tick is the tick offset of R23. -/
theorem AtTick.tickOffset_eq (h : AtTick s base count o) : s.tickOffset = o := by
  rw [State.tickOffset, h.regs, regsAt_bitIndex, regsAt_ph, Nat.div_add_mod']

/-- The pin carries the frame's bit, high in its first ticks (R30, R137). -/
theorem AtTick.pin_eq (h : AtTick s base count o) :
    s.pin = decide (o % s.cfg.nT < highTicks s.cfg (frameBit (stripColor s.mem base) (o / s.cfg.nT))) := by
  rw [pin_of_busy h.busy, h.regs, regsAt_curBit, regsAt_ph]

end

/-- The next tick of the same slot. -/
theorem succ_tick_within_slot {o n : Nat} (h : o % n + 1 < n) : (o + 1) / n = o / n ∧ (o + 1) % n = o % n + 1 := by
  have hdiv := Nat.mod_add_div o n
  exact (Nat.div_mod_unique (by omega)).2 ⟨by omega, h⟩

/-- After the last tick of a slot comes the first of the next. -/
theorem succ_tick_at_slot_end {o n : Nat} (hn : 0 < n) (h : n ≤ o % n + 1) :
    (o + 1) / n = o / n + 1 ∧ (o + 1) % n = 0 := by
  have hdiv := Nat.mod_add_div o n
  have hmod := Nat.mod_lt o hn
  exact (Nat.div_mod_unique hn).2 ⟨by rw [Nat.mul_succ]; omega, hn⟩

/-- A busy tick leads to the next tick of the frame, or, from its last, to the idle block (R133, R134). -/
theorem busyTick_at {s : State} {base count o : Nat} (h : AtTick s base count o) :
    ∃ t, busyTick s = .next t ∧
      (AtTick t base count (o + 1) ∨ (o + 1 = 24 * count * s.cfg.nT ∧ t.regs = Regs.zero)) := by
  have hnT := nT_pos h.cfg_wf
  have hph : s.regs.ph = o % s.cfg.nT := by rw [h.regs, regsAt_ph]
  have hlt := h.within
  obtain hslot | hend := Nat.lt_or_ge (o % s.cfg.nT + 1) s.cfg.nT
  · obtain ⟨hdiv, hmod⟩ := succ_tick_within_slot hslot
    have hne : o + 1 ≠ 24 * count * s.cfg.nT := fun he => by rw [he, Nat.mul_mod_left] at hmod; omega
    refine ⟨_, busyTick_within_slot (hph ▸ hslot), .inl (h.moved rfl rfl rfl ?_ (by omega))⟩
    rw [hdiv, hmod, ← hph]
    exact congrArg (fun r : Regs => { r with ph := s.regs.ph + 1 }) h.regs
  · obtain ⟨hdiv, hmod⟩ := succ_tick_at_slot_end hnT hend
    have hnext : o + 1 = (o / s.cfg.nT + 1) * s.cfg.nT := by rw [← hdiv, Nat.div_mul_cancel (Nat.dvd_of_mod_eq_zero hmod)]
    rw [busyTick_at_slot_end (hph ▸ hend),
      slotEnd_at (s := s.drive [s.pin]) h.regs h.bit_within h.buffer_backed]
    split
    case isTrue hmore =>
      refine ⟨_, rfl, .inl (h.moved rfl rfl rfl (by rw [hdiv, hmod]; rfl) ?_)⟩
      rw [hnext]
      exact Nat.mul_lt_mul_of_pos_right hmore hnT
    case isFalse hlast =>
      have hbit := h.bit_within
      refine ⟨_, rfl, .inr ⟨?_, rfl⟩⟩
      rw [hnext, show o / s.cfg.nT + 1 = 24 * count by omega]

/-- With no `rst` due the step at a tick of the frame is a busy tick, with what that leaves alone (R91, R131). -/
theorem step_at {s : State} {base count o : Nat} (h : AtTick s base count o) (hrst : NoResetWithin 1 s) :
    ∃ t, step s = .next t ∧ HostSideUnchanged (afterTicks 1 s) t ∧ t.trace = s.trace ++ [s.pin] ∧
      ((AtTick t base count (o + 1) ∧ t.ie = s.ie) ∨
        (o + 1 = 24 * count * s.cfg.nT ∧ t.regs = Regs.zero ∧ t.ie = true ∧ t.ret = some .ok)) := by
  have hafter : AtTick (afterTicks 1 s) base count o := h.rescheduled
  obtain ⟨t, ht, hnext⟩ := busyTick_at hafter
  obtain ⟨hframe, htrace, -, hflags⟩ := busyTick_frame ht
  refine ⟨t, (step_busy h.cfg_wf hrst h.port_empty h.busy).trans ht, hframe, htrace, ?_⟩
  obtain hnext | ⟨hlast, hzero⟩ := hnext
  · obtain ⟨-, hie, -⟩ | ⟨hzero, -⟩ := hflags
    · exact .inl ⟨hnext, hie⟩
    · exact absurd hnext.busy (by simp [hzero])
  · obtain ⟨hbusy, -⟩ | hdone := hflags
    · rw [hzero, hafter.busy] at hbusy
      cases hbusy
    · exact .inr ⟨hlast, hdone⟩

/-- The boundaries of two runs that leave the host's side alone add up. -/
theorem hostSideUnchanged_afterTicks {s t u : State} {m n : Nat} (h1 : HostSideUnchanged (afterTicks m s) t)
    (h2 : HostSideUnchanged (afterTicks n t) u) : HostSideUnchanged (afterTicks (m + n) s) u := by
  refine hostSideUnchanged_trans ?_ h2
  obtain ⟨hcfg, hoe, hmem, hport, hscript, hhandlers, hresets, hfresh, hread⟩ := h1
  refine ⟨hcfg, hoe, hmem, hport, hscript, hhandlers, ?_, hfresh, hread⟩
  simp only [afterTicks, hresets, resetsAfter_resetsAfter]

/-- A run goes on from where it has come to. -/
theorem stepN_succ_of_next {n : Nat} {s t : State} (h : stepN n s = .next t) : stepN (n + 1) s = step t := by
  rw [stepN_add, h, andThen_next]
  exact andThen_stepN_zero (step t)

/-- A run goes on from its first step. -/
theorem stepN_one_add_of_next {n : Nat} {s t : State} (h : step s = .next t) : stepN (1 + n) s = stepN n t := by
  rw [Nat.add_comm, stepN, h, andThen_next]

/-- `d` ticks of a frame that has more than `d` ticks left (R137). -/
theorem stepN_at {s : State} {base count o : Nat} (h : AtTick s base count o) (d : Nat)
    (hd : o + d < 24 * count * s.cfg.nT) (hrst : NoResetWithin d s) :
    ∃ t, stepN d s = .next t ∧ AtTick t base count (o + d) ∧ HostSideUnchanged (afterTicks d s) t ∧ t.ie = s.ie ∧
      t.trace = s.trace ++ ((wave s.cfg (stripColor s.mem base) count).drop o).take d := by
  induction d with
  | zero => exact ⟨s, rfl, h, by simp [HostSideUnchanged, afterTicks], rfl, by simp⟩
  | succ d ih =>
    obtain ⟨t, ht, hat, hhost, hie, htrace⟩ := ih (by omega) (noResetWithin_mono hrst (Nat.le_succ d))
    have ⟨hcfg, _, hmem, _, _, _, hresets, _⟩ := hhost
    obtain ⟨u, hu, huhost, hutrace, ⟨huat, huie⟩ | ⟨hlast, -⟩⟩ := step_at hat (noResetWithin_after hrst hresets)
    · refine ⟨u, (stepN_succ_of_next ht).trans hu, huat, hostSideUnchanged_afterTicks hhost huhost, huie.trans hie, ?_⟩
      have hpin := hat.pin_eq
      rw [hcfg, hmem] at hpin
      rw [hutrace, htrace, List.append_assoc, List.take_add_one, List.getElem?_drop,
        wave_getElem? h.cfg_wf _ (by omega), hpin]
      rfl
    · rw [hcfg] at hlast
      exact absurd hlast hd.ne

/-- All the ticks that are left of a frame, the completion among them (R134, R138). -/
theorem stepN_to_completion {s : State} {base count o : Nat} (h : AtTick s base count o)
    (hrst : NoResetWithin (24 * count * s.cfg.nT - o) s) :
    ∃ t, stepN (24 * count * s.cfg.nT - o) s = .next t ∧ t.regs = Regs.zero ∧ t.ie = true ∧ t.ret = some .ok ∧
      HostSideUnchanged (afterTicks (24 * count * s.cfg.nT - o) s) t := by
  have hlt := h.within
  obtain ⟨d, hd⟩ : ∃ d, 24 * count * s.cfg.nT - o = d + 1 := ⟨24 * count * s.cfg.nT - o - 1, by omega⟩
  rw [hd] at hrst ⊢
  obtain ⟨t, ht, hat, hhost, -⟩ := stepN_at h d (by omega) (noResetWithin_mono hrst (Nat.le_succ d))
  have ⟨_, _, _, _, _, _, hresets, _⟩ := hhost
  obtain ⟨u, hu, huhost, -, ⟨huat, -⟩ | ⟨-, hzero, hie, hret⟩⟩ := step_at hat (noResetWithin_after hrst hresets)
  · have hbeyond := huat.within
    have hucfg : u.cfg = s.cfg := (hostSideUnchanged_afterTicks hhost huhost).1
    rw [hucfg] at hbeyond
    omega
  · exact ⟨u, (stepN_succ_of_next ht).trans hu, hzero, hie, hret, hostSideUnchanged_afterTicks hhost huhost⟩

/-! ### Every command completes (R138) -/

/-- A busy block of the invariant is at the tick of its frame that its registers say (R23, R36). -/
theorem atTick_of_inv {s : State} (h : Inv s) (hp : s.port = none) (hb : s.regs.busy = true) :
    AtTick s s.regs.bas s.regs.cnt s.tickOffset := by
  have hbusy := h.busy_regs hb
  have hph := hbusy.ph_lt
  obtain ⟨hdiv, hmod⟩ : s.tickOffset / s.cfg.nT = s.regs.bitIndex ∧ s.tickOffset % s.cfg.nT = s.regs.ph :=
    (Nat.div_mod_unique (nT_pos h.cfg_wf)).2 ⟨by rw [State.tickOffset, Nat.mul_comm, Nat.add_comm], hph⟩
  exact
    { cfg_wf := h.cfg_wf
      port_empty := hp
      regs := by rw [hdiv, hmod]; exact regs_eq_regsAt h hb
      within := (Nat.div_lt_iff_lt_mul (nT_pos h.cfg_wf)).1 (hdiv ▸ bitIndex_lt hbusy)
      buffer_backed := hbusy.buffer_backed }

/-- Settles O39: a step that stays busy is no reset, so it is a busy tick; and the ticks that are left end in completion. -/
theorem everyCommandTerminates : Obligations.EveryCommandTerminates := by
  intro s h hp hb
  have hat := atTick_of_inv h hp hb
  refine ⟨fun t hs hstay => ?raises, hat.within, fun hrst => ?completes⟩
  case raises =>
    obtain ⟨-, ⟨e, es, -, -, rfl⟩ | ⟨rs, -, hbound⟩⟩ := step_cases hs
    · cases hstay
    obtain ⟨w, -, hw, -⟩ | ⟨-, -, htick⟩ | ⟨-, hidle, -⟩ := boundary_cases hbound
    · rw [show s.port = some w from hw] at hp
      cases hp
    · obtain ⟨u, hu, hnext⟩ := busyTick_at (hat.rescheduled (ret := none) (resets := rs))
      rw [htick] at hu
      cases hu
      obtain hnext | ⟨-, hzero⟩ := hnext
      · exact hnext.tickOffset_eq
      · rw [hzero] at hstay
        cases hstay
    · rw [show s.regs.busy = false from hidle] at hb
      cases hb
  case completes =>
    obtain ⟨t, ht, hzero, hie, hret, -, -, -, -, hscript, hhandlers, hresets, -⟩ := stepN_to_completion hat hrst
    exact ⟨t, ht, hzero, hie, hret, hscript, hhandlers, hresets⟩

/-! ### A command of the script, tick by tick (R137) -/

/-- Acceptance leads to tick 0 of the frame. -/
theorem atTick_of_accepted {s : State} {base len count : Nat} (hc : s.cfg.WF) (hp : s.port = none)
    (ha : Admitted s base len count) (h0 : 0 < count) (hl : count ≤ len) :
    AtTick (accepted base count s) base count 0 where
  cfg_wf := hc
  port_empty := hp
  regs := by rw [Nat.zero_div, Nat.zero_mod]; rfl
  within := frame_ticks_pos hc h0
  buffer_backed := (backed_of_admitted ha hl :)

/-- The channel byte of bit `n`, read from the buffer's Colors (R51, R71). -/
theorem chan_stripColor (m : Memory) (base n : Nat) :
    chan (stripColor m base (n / 24)) (n % 24 / 8) = m.read (base + n / 8) := by
  rw [← chanAddr_eq]
  obtain h | h | h : n % 24 / 8 = 0 ∨ n % 24 / 8 = 1 ∨ n % 24 / 8 = 2 := by omega
  all_goals rw [h]; rfl

/-- Settles O36: one step accepts the command, and the next `d` are ticks of its frame. -/
theorem ticksFollowTheFrame : Obligations.TicksFollowTheFrame := by
  intro s base len count d rest hc hu hs ha h0 hl hd
  obtain ⟨hp, hhandler, hrst⟩ := hu
  have haccept := step_accepts hc ⟨hp, hhandler, noResetWithin_mono hrst (Nat.le_add_right 1 d)⟩ hs ha h0 hl
  have hfirst := atTick_of_accepted (s := hostBoundary rest 1 s) hc hp ha h0 hl
  obtain ⟨t, ht, hat, hhost, hie, htrace⟩ := stepN_at hfirst d (by rwa [Nat.zero_add]) (noResetWithin_after hrst rfl)
  obtain ⟨hcfg, -, hmem, -, hscript, hhandlers, hresets, -⟩ := hhost
  have hcfg : t.cfg = s.cfg := hcfg
  have hmem : t.mem = s.mem := hmem
  have hregs := hat.regs
  have hpin := hat.pin_eq
  rw [Nat.zero_add, hcfg, hmem] at hregs hpin
  refine ⟨t, (stepN_one_add_of_next haccept).trans ht, hat.busy, hie, hmem, hscript, hhandlers, ?_, ?_⟩
  · rw [hresets]
    exact resetsAfter_resetsAfter 1 d s.resets
  · rw [hregs]
    exact ⟨rfl, rfl, rfl, rfl, (chan_stripColor s.mem base (d / s.cfg.nT)).symm, hpin, htrace⟩

/-- The ordinary path of `TRANSMIT` as a whole operation is acceptance and the frame's bits (R90). -/
theorem execTransmit_eq_emitBits {s : State} {base len count : Nat} (ha : Admitted s base len count) (h0 : 0 < count)
    (hl : count ≤ len) :
    execTransmit base len count s = emitBits (frameBits (stripColor s.mem base) count) (accepted base count s) := by
  rw [execTransmit, command_of_admitted ha, if_neg (by omega), if_neg (by omega), accept_eq ha h0 hl, andThen_next,
    emitColors_eq, stripColors_bits]
  rfl

/-- The whole frame of an accepted command, tick by tick. -/
theorem stepN_frame {s : State} {base count : Nat} (h : AtTick (accepted base count s) base count 0) (h0 : 0 < count)
    (hrst : NoResetWithin (24 * count * s.cfg.nT) (accepted base count s)) :
    stepN (24 * count * s.cfg.nT) (accepted base count s) =
      emitBits (frameBits (stripColor s.mem base) count) (afterTicks (24 * count * s.cfg.nT) (accepted base count s)) := by
  obtain ⟨m, hm⟩ : ∃ m, 24 * count = m + 1 := ⟨24 * count - 1, by omega⟩
  have hslots := stepN_slots h.cfg_wf h.port_empty (n := 0) rfl h.buffer_backed m (by omega)
  simp only [← hm, Nat.zero_add] at hslots
  exact hslots hrst

/-- The ticks of a frame leave a command accepted at its boundary what it is, but for a pending `rst` (log 9). -/
theorem afterTicks_accepted (base count m n : Nat) (rest : List HostMove) (s : State) :
    afterTicks n (accepted base count (hostBoundary rest m s)) = accepted base count (hostBoundary rest (m + n) s) := by
  simp [afterTicks, accepted, hostBoundary]

/-- Settles O37: a command of no Colors ends at its boundary either way; of a frame to send, the ticks are those of its
slots. -/
theorem tickByTickAgreesWithTheOperation : Obligations.TickByTickAgreesWithTheOperation := by
  intro s base len count rest hc hu hs ha hl
  obtain ⟨hp, hhandler, hrst⟩ := hu
  have hu1 : Undisturbed 1 s := ⟨hp, hhandler, noResetWithin_mono hrst (Nat.le_add_right _ _)⟩
  obtain rfl | h0 := Nat.eq_zero_or_pos count
  case inl =>
    rw [Nat.mul_zero, Nat.zero_mul, Nat.add_zero, stepN, andThen_stepN_zero]
    obtain ⟨hstep, -⟩ := zeroTickCommandsTakeOneBoundary s base len 0 rest hc hu1 hs ha
    exact (hstep rfl).trans (transmitOfNoColorsCompletesAtOnce (hostBoundary rest 1 s) base len ha).symm
  case inr =>
    have hfirst := atTick_of_accepted (s := hostBoundary rest 1 s) hc hp ha h0 hl
    rw [stepN_one_add_of_next (step_accepts hc hu1 hs ha h0 hl)]
    refine (stepN_frame hfirst h0 (noResetWithin_after hrst rfl)).trans ?_
    rw [afterTicks_accepted]
    exact (execTransmit_eq_emitBits (s := hostBoundary rest (1 + 24 * count * s.cfg.nT) s) ha h0 hl).symm

end Sys2Proof.Proofs

/-! PROOFS. Interrupts (`60_exceptions.md`): when a handler is entered and what its entry changes (R156, R157). -/

namespace Sys2Proof.Proofs

open Sys2Proof.Machine Sys2Proof.Laws

/-! ### Whose moves leave the waiting handlers as they are -/

theorem issue_handlers {s t : State} {base len count : Nat} (h : issue base len count s = .next t) :
    t.handlers = s.handlers := by
  obtain ⟨-, rfl | rfl | ⟨-, -, rfl⟩⟩ := issue_cases h
  · exact raiseInvalidArgument_handlers s
  · exact completeAtOnce_handlers s
  · rfl

/-- No line of the host's script enters a handler or takes one away (R83). -/
theorem hostMove_handlers {s t : State} (h : hostMove s = .next t) : t.handlers = s.handlers := by
  obtain ⟨_, rfl⟩ | ⟨_, _, _, rfl⟩ | ⟨_, _, _, -, -, rfl⟩ | ⟨_, _, _, _, -, hi⟩ := hostMove_cases h
  · rfl
  · rfl
  · rfl
  · exact (issue_handlers hi :)

/-! ### The entry of a handler -/

/-- From `s` to `t` the first waiting handler has entered, with `IE = 1` and its delay run down: its moves stand before what
the host had left (R156, log 8). -/
def HandlerEntered (s t : State) : Prop :=
  s.ie = true ∧ ∃ h, s.handlers = h :: t.handlers ∧ h.delay = 0 ∧ t.script = h.body ++ s.script

/-- An idle boundary at which no handler enters may count a delay down, but keeps as many waiting. -/
theorem idleMove_handlers {s t : State} (h : idleMove s = .next t) :
    t.handlers.length = s.handlers.length ∨ HandlerEntered s t := by
  obtain ⟨x, _, hx, hie, hd, rfl⟩ | ⟨_, hlen, hm⟩ := idleMove_cases h
  · exact .inr ⟨hie, x, hx, hd, rfl⟩
  · exact .inl ((congrArg List.length (hostMove_handlers hm)).trans hlen)

/-- At a boundary neither an operation nor the sequencer touches the waiting handlers: one enters only an idle block. -/
theorem boundary_handlers {s t : State} (h : boundary s = .next t) :
    t.handlers.length = s.handlers.length ∨ (s.regs.busy = false ∧ HandlerEntered s t) := by
  obtain ⟨_, _, -, -, he⟩ | ⟨-, -, ht⟩ | ⟨-, hb, hm⟩ := boundary_cases h
  · obtain ⟨-, -, -, -, -, hhandlers, -⟩ := exec_hostSideUnchanged he
    exact .inl (congrArg List.length hhandlers)
  · obtain ⟨-, -, -, -, -, hhandlers, -⟩ := (busyTick_frame ht).1
    exact .inl (congrArg List.length hhandlers)
  · exact (idleMove_handlers hm).imp_right fun hentered => ⟨hb, hentered⟩

/-- Settles O47: a reset keeps the waiting handlers, and at a boundary their number changes only by an entry. -/
theorem handlersEnterOnlyWhenEnabledAndIdle : Obligations.HandlersEnterOnlyWhenEnabledAndIdle := by
  intro s t h hne
  obtain ⟨-, ⟨_, _, -, -, rfl⟩ | ⟨_, -, hb⟩⟩ := step_cases h
  · exact absurd (congrArg List.length (systemReset_handlers _ _)) hne
  · obtain hsame | ⟨hidle, hie, hentered⟩ := boundary_handlers hb
    · exact absurd hsame hne
    · exact ⟨hie, hidle, hentered⟩

/-- With nothing on the port a boundary of the idle block is an idle move. -/
theorem boundary_of_idle {s : State} (hp : s.port = none) (hb : s.regs.busy = false) : boundary s = idleMove s := by
  simp [boundary, hp, hb]

/-- An idle boundary at which the first handler's turn has come is its entry (R156). -/
theorem idleMove_of_handler {s : State} {h : Handler} {hs : List Handler} (hie : s.ie = true)
    (hh : s.handlers = h :: hs) (hd : h.delay = 0) :
    idleMove s = .next { s with handlers := hs, script := h.body ++ s.script } := by
  simp only [idleMove, hh, hie, hd, if_true]

/-- Settles O48: no reset comes first and nothing is on the port, so the step is the idle move that enters the handler. -/
theorem handlerEntersAtAnEnabledIdleBoundary : Obligations.HandlerEntersAtAnEnabledIdleBoundary := by
  intro s h hs hc hp hrst hb hie hh hd
  have hstep := step_of_no_reset hc hrst
  have hidle := boundary_of_idle (s := { s with ret := none, resets := resetsAfter 1 s.resets }) hp hb
  exact (hstep.trans hidle).trans (idleMove_of_handler hie hh hd)

end Sys2Proof.Proofs

/-! PROOFS. Reset and hazards (`70_reset_and_hazards.md`): the state that a reset leaves (R180 to R182), the end of a run
(R184), and `IE` after every result (R188). -/

namespace Sys2Proof.Proofs

open Sys2Proof.Machine Sys2Proof.Laws

/-! ### Reset (R180 to R182) -/

/-- A step at which an `rst` is due is the system's reset, whatever the block was doing (R182). -/
theorem step_of_reset_due {s : State} {e : ResetEvent} {es : List ResetEvent} (hc : s.cfg.WF) (hr : s.resets = e :: es)
    (hd : e.delay = 0) : step s = .next (({ s with resets := es }).systemReset e) := by
  simp only [step, oneStep, if_pos hc, hr, if_pos hd]

/-- Settles O53: the step is the system's reset, after which the block is idle and memory canonical. -/
theorem resetAbandonsTheCommand : Obligations.ResetAbandonsTheCommand := by
  intro s e es hc hr hd
  have hinv : Inv (({ s with resets := es }).systemReset e) :=
    systemReset_inv (s := { s with resets := es }) hc e
  exact ⟨_, step_of_reset_due hc hr hd, systemReset_regs e _, pin_of_idle zero_busy, systemReset_pinOe e _,
    systemReset_ret e _, systemReset_port e _, systemReset_trace e _, systemReset_lowRun e _, systemReset_sent e _,
    systemReset_script e _, systemReset_cfg e _, hinv.mem_wf⟩

/-! ### The end of a run (R184) -/

/-- Settles O51: the invariant gives the idle registers, and the step is the idle tick of O35. -/
theorem anEndedRunIsFinal : Obligations.AnEndedRunIsFinal := by
  intro s hinv hu ⟨hscript, hb⟩
  have ⟨hend, _⟩ := idleTickKeepsTheLineLow s 0 [] hinv.cfg_wf hu hb
  exact ⟨hinv.idle_regs hb, pin_of_idle hb, _, hend hscript, ⟨hscript, hb⟩, rfl, rfl, rfl, rfl, rfl, rfl, rfl, rfl⟩

/-! ### `IE` after every result (R188)

A step drops the result delivered before (R29), so a result it ends with is one that it delivers; whatever delivers one sets
`IE`. -/

/-- If a result is delivered at this boundary, `IE = 1` (R188). -/
def ReturnsEnabled (t : State) : Prop := t.ret ≠ none → t.ie = true

theorem returnsEnabled_of_ie {t : State} (h : t.ie = true) : ReturnsEnabled t := fun _ => h

theorem returnsEnabled_of_no_result {t : State} (h : t.ret = none) : ReturnsEnabled t := fun hne => absurd h hne

/-- What sends bits keeps both `IE` and the result, or completes the command and writes both (R133, R134). -/
theorem returnsEnabled_of_kept_or_completed {s t : State} {p q : Prop}
    (h : (p ∧ t.ie = s.ie ∧ t.ret = s.ret) ∨ (q ∧ t.ie = true ∧ t.ret = some .ok)) (hret : s.ret = none) :
    ReturnsEnabled t := by
  obtain ⟨-, -, hkept⟩ | ⟨-, hie, -⟩ := h
  · exact returnsEnabled_of_no_result (hkept.trans hret)
  · exact returnsEnabled_of_ie hie

theorem emitBits_returnsEnabled {bs : List Bit} {s t : State} (h : emitBits bs s = .next t) (hret : s.ret = none) :
    ReturnsEnabled t :=
  returnsEnabled_of_kept_or_completed (emitBits_frame h).2 hret

theorem busyTick_returnsEnabled {s t : State} (h : busyTick s = .next t) (hret : s.ret = none) : ReturnsEnabled t := by
  obtain ⟨-, -, -, hkeptOrCompleted⟩ := busyTick_frame h
  exact returnsEnabled_of_kept_or_completed hkeptOrCompleted hret

theorem execTransmit_returnsEnabled {s t : State} {base len count : Nat} (h : execTransmit base len count s = .next t)
    (hret : s.ret = none) : ReturnsEnabled t := by
  obtain ⟨-, rfl | rfl | ⟨-, -, hbits⟩⟩ := execTransmit_cases h
  · exact returnsEnabled_of_ie (raiseInvalidArgument_ie s)
  · exact returnsEnabled_of_ie (completeAtOnce_ie s)
  · exact emitBits_returnsEnabled hbits hret

theorem exec_returnsEnabled {i : Instr} {s t : State} (h : exec i s = .next t) (hret : s.ret = none) :
    ReturnsEnabled t := by
  by_cases hi : ∃ base len count, i = .transmit base len count
  · obtain ⟨base, len, count, rfl⟩ := hi
    exact execTransmit_returnsEnabled h hret
  · obtain ⟨-, -, _, hbits, -⟩ | ⟨-, _, -, rfl⟩ := exec_wire (fun b l c he => hi ⟨b, l, c, he⟩) h
    · exact emitBits_returnsEnabled hbits hret
    · exact returnsEnabled_of_no_result hret

/-- Acceptance clears `IE` and delivers nothing (R130); the commands of no tick set `IE` and end (R93, R96). -/
theorem issue_returnsEnabled {s t : State} {base len count : Nat} (h : issue base len count s = .next t)
    (hret : s.ret = none) : ReturnsEnabled t := by
  obtain ⟨-, rfl | rfl | ⟨-, -, rfl⟩⟩ := issue_cases h
  · exact returnsEnabled_of_ie (raiseInvalidArgument_ie s)
  · exact returnsEnabled_of_ie (completeAtOnce_ie s)
  · exact returnsEnabled_of_no_result hret

/-- Of the host's moves only a command can deliver a result (R83). -/
theorem hostMove_returnsEnabled {s t : State} (h : hostMove s = .next t) (hret : s.ret = none) : ReturnsEnabled t := by
  obtain ⟨_, rfl⟩ | ⟨_, _, _, rfl⟩ | ⟨_, _, _, -, -, rfl⟩ | ⟨_, _, _, _, -, hi⟩ := hostMove_cases h
  · exact returnsEnabled_of_no_result hret
  · exact returnsEnabled_of_no_result hret
  · exact returnsEnabled_of_no_result hret
  · exact issue_returnsEnabled hi hret

theorem idleMove_returnsEnabled {s t : State} (h : idleMove s = .next t) (hret : s.ret = none) : ReturnsEnabled t := by
  obtain ⟨_, _, -, -, -, rfl⟩ | ⟨_, -, hm⟩ := idleMove_cases h
  · exact returnsEnabled_of_no_result hret
  · exact hostMove_returnsEnabled hm hret

theorem boundary_returnsEnabled {s t : State} (h : boundary s = .next t) (hret : s.ret = none) : ReturnsEnabled t := by
  obtain ⟨_, _, -, -, he⟩ | ⟨-, -, ht⟩ | ⟨-, -, hm⟩ := boundary_cases h
  · exact exec_returnsEnabled he hret
  · exact busyTick_returnsEnabled ht hret
  · exact idleMove_returnsEnabled hm hret

/-- Settles O49: a reset delivers no result, and a boundary begins with none and returns enabled. -/
theorem interruptsAreEnabledAfterEveryReturn : Obligations.InterruptsAreEnabledAfterEveryReturn := by
  intro s t h
  obtain ⟨-, ⟨e, _, -, -, rfl⟩ | ⟨_, -, hb⟩⟩ := step_cases h
  · exact returnsEnabled_of_no_result (systemReset_ret e _)
  · exact boundary_returnsEnabled hb rfl

end Sys2Proof.Proofs
